-- ==== Sys2Proof/Word.lean ====
section
/-! DEFINITION. The word types of the machine (R11, R12, R20, R22, R25, R30, R181): what the spec adds, shifts or masks is a
bit vector; an index is a `Fin`; an amount of time is an exact rational. -/

namespace Sys2Proof

/-- An 8-bit value: a register `V[r]`, a timer, a byte of memory, an immediate `kk` (R20, R30, R32, R78). -/
abbrev Byte := BitVec 8

/-- A 16-bit value: an instruction word, `PC`, `I`, a stack entry (R22, R25, R28, R75). -/
abbrev Word := BitVec 16

/-- A 4-bit slice of an instruction word (R15). -/
abbrev Nibble := BitVec 4

/-- The 12-bit immediate `nnn` (R78). -/
abbrev Addr12 := BitVec 12

/-- The number of a general register, 0 to 15 (R20, R78). -/
abbrev Reg := Fin 16

/-- The index of a key, 0 to 15 (R36). -/
abbrev Key := Fin 16

/-- `V[15]`, the flag register `VF` (R14, R24). -/
abbrev vf : Reg := 15

/-- The spec's `TIME`: seconds as exact rationals (R181). A negative amount is refused where the host gives it. -/
abbrev Time := Rat

end Sys2Proof
end

