-- ==== Sys2Proof/Config.lean ====
section
/-! DEFINITION. What is fixed when a machine is built (R6, R7, R8, R9, R10), what the host sends it, and the one free value. -/

namespace Sys2Proof

/-- The parameters a machine is built with (R10, R45): they are chosen at construction and nothing writes them after. -/
structure Config where
  /-- `true`: `8xy6` and `8xyE` shift `V[x]` in place. `false`: they copy `V[y]` into `V[x]` first (R6, R40). -/
  shiftQuirk : Bool
  /-- Invocations of the Decoder/Executor for one second of accumulated time (R7, R41). -/
  cpuFrequency : Nat
  /-- The 80 bytes of the font table, the parameter `FONT` (R10, R63). -/
  font : Vector Byte 80
  deriving DecidableEq, Repr

/-- The bytes of memory (R9, R32). -/
abbrev memorySize : Nat := 4096

/-- The bytes of the font table, from address 0 (R9, R61). -/
abbrev fontSize : Nat := 80

/-- Where the program stands and where `PC` starts (R9, R22, R61). -/
abbrev programBase : Nat := 512

/-- The entries of the call stack (R9, R26). -/
abbrev stackDepth : Nat := 16

/-- The fixed rate of the Timer Unit, in ticks for one second (R8). -/
abbrev timerRate : Nat := 60

/-- What the host does to the CORE once it runs (R214, R219): it calls `advance` with the time that has gone by, and
between two calls it rewrites the keypad. -/
inductive HostInput where
  /-- One `advance(elapsed)` call (R180). -/
  | advance (elapsed : Time)
  /-- The event source's new snapshot of the sixteen keys (R36, R215). -/
  | setKeypad (keys : Vector Bool 16)
  deriving DecidableEq, Repr

/-- FREE VALUE (R142, U1): the byte that `RandomByte()` gives at the machine's `k`-th draw. The spec names no generator, so
nothing constrains it. -/
opaque Config.randomByte : Nat → Byte

end Sys2Proof
end

