-- ==== Sys2Proof/Syntax.lean ====
section
/-! DEFINITION. The abstract syntax of the instruction set: one constructor for each of the 34 rows of the opcode map (R80). -/

namespace Sys2Proof

/-- The instructions of the opcode map, in its order (R80). Register operands are register numbers, `kk` an 8-bit and `nnn` a
12-bit immediate, `n` a count of sprite rows (R78). -/
inductive Instr where
  /-- `00E0` CLS (R100) -/
  | cls
  /-- `00EE` RET (R101) -/
  | ret
  /-- `1nnn` JP addr (R102) -/
  | jp (nnn : Addr12)
  /-- `2nnn` CALL addr (R103) -/
  | call (nnn : Addr12)
  /-- `3xkk` SE Vx, byte (R110) -/
  | seByte (x : Reg) (kk : Byte)
  /-- `4xkk` SNE Vx, byte (R111) -/
  | sneByte (x : Reg) (kk : Byte)
  /-- `5xy0` SE Vx, Vy (R112) -/
  | seReg (x y : Reg)
  /-- `6xkk` LD Vx, byte (R120) -/
  | ldByte (x : Reg) (kk : Byte)
  /-- `7xkk` ADD Vx, byte (R121) -/
  | addByte (x : Reg) (kk : Byte)
  /-- `8xy0` LD Vx, Vy (R126) -/
  | ldReg (x y : Reg)
  /-- `8xy1` OR Vx, Vy (R127) -/
  | orReg (x y : Reg)
  /-- `8xy2` AND Vx, Vy (R128) -/
  | andReg (x y : Reg)
  /-- `8xy3` XOR Vx, Vy (R129) -/
  | xorReg (x y : Reg)
  /-- `8xy4` ADD Vx, Vy (R130) -/
  | addReg (x y : Reg)
  /-- `8xy5` SUB Vx, Vy (R131) -/
  | subReg (x y : Reg)
  /-- `8xy6` SHR Vx, Vy (R132) -/
  | shr (x y : Reg)
  /-- `8xy7` SUBN Vx, Vy (R133) -/
  | subnReg (x y : Reg)
  /-- `8xyE` SHL Vx, Vy (R134) -/
  | shl (x y : Reg)
  /-- `9xy0` SNE Vx, Vy (R113) -/
  | sneReg (x y : Reg)
  /-- `Annn` LD I, addr (R140) -/
  | ldI (nnn : Addr12)
  /-- `Bnnn` JP V0, addr (R141) -/
  | jpV0 (nnn : Addr12)
  /-- `Cxkk` RND Vx, byte (R142) -/
  | rnd (x : Reg) (kk : Byte)
  /-- `Dxyn` DRW Vx, Vy, nibble (R147) -/
  | drw (x y : Reg) (n : Nat)
  /-- `Ex9E` SKP Vx (R153) -/
  | skp (x : Reg)
  /-- `ExA1` SKNP Vx (R154) -/
  | sknp (x : Reg)
  /-- `Fx07` LD Vx, DT (R157) -/
  | ldVxDt (x : Reg)
  /-- `Fx0A` LD Vx, K (R158) -/
  | ldVxK (x : Reg)
  /-- `Fx15` LD DT, Vx (R159) -/
  | ldDtVx (x : Reg)
  /-- `Fx18` LD ST, Vx (R160) -/
  | ldStVx (x : Reg)
  /-- `Fx1E` ADD I, Vx (R161) -/
  | addIVx (x : Reg)
  /-- `Fx29` LD F, Vx (R162) -/
  | ldFVx (x : Reg)
  /-- `Fx33` LD B, Vx (R163) -/
  | ldBVx (x : Reg)
  /-- `Fx55` LD [I], Vx (R164) -/
  | ldMemVx (x : Reg)
  /-- `Fx65` LD Vx, [I] (R165) -/
  | ldVxMem (x : Reg)
  deriving DecidableEq, Repr

end Sys2Proof
end

