-- ==== Sys2Proof/WellFormed.lean ====
section
/-! DEFINITION. What is well formed among the things given to the machine from outside: an instruction, a configuration, a host
input, a program. Register numbers and immediates are well formed by their types (R78). -/

namespace Sys2Proof

/-- `n` of `Dxyn` is a 4-bit row count, 0 to 15 (R78). No other operand needs a check. -/
def Instr.wf : Instr → Bool
  | .drw _ _ n => n < 16
  | .cls | .ret | .jp _ | .call _ | .seByte _ _ | .sneByte _ _ | .seReg _ _ | .ldByte _ _ | .addByte _ _ | .ldReg _ _
  | .orReg _ _ | .andReg _ _ | .xorReg _ _ | .addReg _ _ | .subReg _ _ | .shr _ _ | .subnReg _ _ | .shl _ _ | .sneReg _ _
  | .ldI _ | .jpV0 _ | .rnd _ _ | .skp _ | .sknp _ | .ldVxDt _ | .ldVxK _ | .ldDtVx _ | .ldStVx _ | .addIVx _ | .ldFVx _
  | .ldBVx _ | .ldMemVx _ | .ldVxMem _ => true

/-- A valid configuration: `cpuFrequency` is at least 1 (R7, R233). -/
def Config.wf (c : Config) : Bool := 1 ≤ c.cpuFrequency

/-- A valid host input: an `advance` call's elapsed time is not negative (R181, R219). -/
def HostInput.wf : HostInput → Bool
  | .advance e => 0 ≤ e.num
  | .setKeypad _ => true

/-- A program fits when it has at most 3584 bytes, those from 512 to the end of memory (R62). -/
def romFits (rom : List Byte) : Bool := rom.length ≤ memorySize - programBase

end Sys2Proof
end

