-- ==== Sys2Proof/Machine/Memory.lean ====
section
/-! DEFINITION. The 4096 bytes of memory as a list of cells in one canonical form, the customary font, the framebuffer's cells
(R32, R33, R34, R61, R63). These operations know nothing of the rest of the machine. -/

namespace Sys2Proof.Machine

/-- Memory: the cells that differ from the contents after construction, addresses strictly rising. -/
abbrev Memory := List Host.Cell

/-- What an unlisted address reads as: the contents after construction, the font at 0 to 79 and zero from 80 on (R33). -/
def constructedByte (font : Vector Byte 80) (a : Nat) : Byte := if h : a < 80 then font[a] else 0

/-- The byte at an address (R59, R65). -/
def Memory.read (font : Vector Byte 80) : Memory → Nat → Byte
  | [], a => constructedByte font a
  | (b, u) :: rest, a => if a = b then u else Memory.read font rest a

/-- A cell in front of a memory, left out when it holds what its address reads as unlisted. -/
def Memory.consCell (font : Vector Byte 80) (a : Nat) (v : Byte) (m : Memory) : Memory :=
  if v = constructedByte font a then m else (a, v) :: m

/-- Memory with one byte written (R59). -/
def Memory.write (font : Vector Byte 80) : Memory → Nat → Byte → Memory
  | [], a, v => Memory.consCell font a v []
  | (b, u) :: rest, a, v =>
    if a < b then Memory.consCell font a v ((b, u) :: rest)
    else if a = b then Memory.consCell font a v rest
    else (b, u) :: Memory.write font rest a v

/-- Memory with a run of bytes written, the first at the lowest address (R51). -/
def Memory.writeRun (font : Vector Byte 80) : Memory → Nat → List Byte → Memory
  | m, _, [] => m
  | m, a, v :: vs => Memory.writeRun font (Memory.write font m a v) (a + 1) vs

/-- The canonical form: addresses strictly rising, inside the memory, and no cell equal to what its address reads as unlisted.
Two memories in this form that read alike are equal. -/
abbrev Memory.wf (font : Vector Byte 80) (m : Memory) : Prop :=
  m.Pairwise (fun c d => c.1 < d.1) ∧ ∀ c ∈ m, c.1 < 4096 ∧ c.2 ≠ constructedByte font c.1

/-- Digits 0 to 7 of the customary font (R63). -/
def fontDigits0to7 : List Byte :=
  [0xF0, 0x90, 0x90, 0x90, 0xF0, 0x20, 0x60, 0x20, 0x20, 0x70, 0xF0, 0x10, 0xF0, 0x80, 0xF0, 0xF0, 0x10, 0xF0, 0x10, 0xF0,
   0x90, 0x90, 0xF0, 0x10, 0x10, 0xF0, 0x80, 0xF0, 0x10, 0xF0, 0xF0, 0x80, 0xF0, 0x90, 0xF0, 0xF0, 0x10, 0x20, 0x40, 0x40]

/-- Digits 8 to F of the customary font (R63). -/
def fontDigits8toF : List Byte :=
  [0xF0, 0x90, 0xF0, 0x90, 0xF0, 0xF0, 0x90, 0xF0, 0x10, 0xF0, 0xF0, 0x90, 0xF0, 0x90, 0x90, 0xE0, 0x90, 0xE0, 0x90, 0xE0,
   0xF0, 0x80, 0x80, 0x80, 0xF0, 0xE0, 0x90, 0x90, 0x90, 0xE0, 0xF0, 0x80, 0xF0, 0x80, 0xF0, 0xF0, 0x80, 0xF0, 0x80, 0x80]

/-- PRESUMED (log 1): the customary hexadecimal font, the default of the parameter `FONT` (R63). -/
def customaryFont : Vector Byte 80 := ⟨(fontDigits0to7 ++ fontDigits8toF).toArray, rfl⟩

/-- The configuration a machine has unless it is told otherwise: `shiftQuirk` true, 700 Hz, the customary font (R6, R7, R63). -/
def defaultConfig : Config := { shiftQuirk := true, cpuFrequency := 700, font := customaryFont }

/-- The 64 by 32 framebuffer, `fb[row][col]`, row-major (R34). -/
abbrev Framebuffer := Vector (Vector Bool 64) 32

/-- Every cell false (R35, R100). -/
def blankFramebuffer : Framebuffer := Vector.replicate 32 (Vector.replicate 64 false)

/-- The cell `fb[row][col]` (R34). -/
def Framebuffer.cell (fb : Framebuffer) (row : Fin 32) (col : Fin 64) : Bool := fb[row][col]

/-- The framebuffer with one cell toggled (R34, R147). -/
def Framebuffer.toggle (fb : Framebuffer) (row : Fin 32) (col : Fin 64) : Framebuffer :=
  fb.set row (fb[row].set col (!fb[row][col]))

end Sys2Proof.Machine
end

