-- ==== Sys2Proof/Machine/State.lean ====
section
/-! DEFINITION. The machine's state, whole and plain, the reasons it stops, and the state after construction (R20 to R45, R230,
R231). -/

namespace Sys2Proof.Machine

/-- The failures of R200 with the information recorded for each; every one ends the run (R206). In all of them `pc` is the
address of the failing instruction. -/
inductive Failure where
  /-- The fetched word matches no row of the opcode map. Raised by any invocation (R201). -/
  | decodeFailure (word pc : Word)
  /-- `2nnn` with `SP = 16` (R202). -/
  | stackOverflow (pc : Word)
  /-- `00EE` with `SP = 0` (R203). -/
  | stackUnderflow (pc : Word)
  /-- `PC > 4094` at a fetch, or `PC > 4095` at the host's check after a call (R204). -/
  | pcOutOfBounds (pc : Word)
  /-- A data access of `Dxyn`, `Fx33`, `Fx55` or `Fx65` past address 4095 (R56). -/
  | memOutOfBounds (i pc : Word)
  /-- A store of `Fx33` or `Fx55` with `I < 80` (R57). -/
  | fontRegionWrite (i pc : Word)
  /-- `Ex9E` or `ExA1` with `V[x] > 15` (R155). -/
  | keyIndexOutOfRange (index : Byte) (pc : Word)
  deriving DecidableEq, Repr

/-- Why a step faults. -/
inductive Fault where
  /-- The machine was halted by `cause` and has no further step (R206, R207). Raised by `step` only, never by an instruction:
  a failing invocation answers the next state in which `halted` records the failure. Safe: the machine takes no step either. -/
  | halted (cause : Failure)
  deriving DecidableEq, Repr

/-- Why a step is refused. -/
inductive Refusal where
  /-- The instruction has no meaning yet. Raised by `exec`'s arms only; no arm does at present. Safe. -/
  | notModelled (mnemonic : String)
  /-- `cpuFrequency` below 1: no such machine is constructed (R7, U8). Raised by `construct` and `step`. Safe. -/
  | cpuFrequencyBelowOne
  /-- The program is longer than 3584 bytes (R62, U10). Raised by `construct`. Safe. -/
  | romTooLong (length : Nat)
  /-- `advance` called with a negative time (R181, U9). Raised by `step`. Safe. -/
  | negativeElapsed (elapsed : Time)
  deriving DecidableEq, Repr

/-- Where the Cycle Scheduler stands in an `advance` call, the control point of R182's pseudocode. The model's own field
(log 4): `advance` is many steps here. -/
inductive CallPhase where
  /-- No call is running: the host moves. -/
  | idle
  /-- In the timer loop of a call with this `elapsed` (R182). -/
  | timerLoop (elapsed : Time)
  /-- In the CPU loop of a call (R182). -/
  | cpuLoop
  deriving DecidableEq, Repr

/-- The machine. -/
structure State where
  /-- `V[0]` to `V[15]` (R20); `V[15]` is the flag (R24). -/
  v : Vector Byte 16
  /-- `I` (R25). -/
  i : Word
  /-- `PC` (R22). -/
  pc : Word
  /-- `SP`, the frames in use, 0 to 16 (R26, R27). -/
  sp : Fin 17
  /-- `stack[0]` to `stack[15]` (R26, R28). -/
  stack : Vector Word 16
  /-- The delay timer (R30). -/
  dt : Byte
  /-- The sound timer (R30). -/
  st : Byte
  /-- The 4096 bytes of memory (R32, R33). -/
  mem : Memory
  /-- The framebuffer (R34). -/
  fb : Framebuffer
  /-- The keypad snapshot (R36). -/
  keypad : Vector Bool 16
  /-- `drawFlag` (R38). -/
  drawFlag : Bool
  /-- The configuration, fixed at construction (R40, R41, R63); held here as data (log 11). -/
  cfg : Config
  /-- The timer phase accumulator (R42). -/
  timerAccum : Time
  /-- The CPU phase accumulator (R42). -/
  cpuAccum : Time
  /-- The failure that halted the machine, if one did (R44). -/
  halted : Option Failure
  /-- The model's own (log 4): where the running `advance` call stands. -/
  phase : CallPhase
  /-- The model's own (log 4): what the host does next, the first first. -/
  inputs : List HostInput
  /-- The model's own (log 5): how many random bytes have been drawn. -/
  draws : Nat
  deriving DecidableEq, Repr

/-- What an instruction or a step answers. -/
abbrev Result := Host.Outcome State Fault Refusal

/-- The state after construction with the default configuration and no program (R230, R231). The stack entries, which the spec
leaves unspecified (R28), are zero: DESIGN CHOICE (log 3). What R231 does not take from its source is its decisions D3 and D4
(log 9). `phase`, `inputs` and `draws` are the model's own (logs 4, 5). -/
def State.reset : State where
  v := Vector.replicate 16 0
  i := 0
  pc := 512
  sp := 0
  stack := Vector.replicate 16 0
  dt := 0
  st := 0
  mem := []
  fb := blankFramebuffer
  keypad := Vector.replicate 16 false
  drawFlag := false
  cfg := defaultConfig
  timerAccum := 0
  cpuAccum := 0
  halted := none
  phase := .idle
  inputs := []
  draws := 0

end Sys2Proof.Machine
end

