-- ==== Sys2Proof/Machine/Ops.lean ====
section
/-! DEFINITION. The named operations on registers, the program counter, the call stack and memory, and taking a failure. -/

namespace Sys2Proof.Machine

/-- `V[r]` (R13, R20). -/
def State.readV (s : State) (r : Reg) : Byte := s.v[r]

/-- `V[r] <- b` (R13, R20). -/
def State.writeV (s : State) (r : Reg) (b : Byte) : State := { s with v := s.v.set r b }

/-- The ordinary advance: `PC <- PC + 2` (R174). -/
def State.advance (s : State) : State := { s with pc := s.pc + 2 }

/-- The end of a skip: `PC <- a + 4` when the condition holds, else `PC <- a + 2` (R114). -/
def State.skipIf (s : State) (condition : Bool) : State := { s with pc := if condition then s.pc + 4 else s.pc + 2 }

/-- `PC <- target`, no advance (R102, R141). -/
def State.jump (s : State) (target : Word) : State := { s with pc := target }

/-- `stack[SP] <- PC`, `SP <- SP + 1`, or nothing when `SP = 16` (R103). -/
def State.pushPc? (s : State) : Option State :=
  if h : s.sp.val < 16 then some { s with stack := s.stack.set s.sp.val s.pc, sp := ⟨s.sp.val + 1, by omega⟩ } else none

/-- `SP <- SP - 1`, `PC <- stack[SP]`, or nothing when `SP = 0` (R101). The popped entry stays where it is. -/
def State.popPc? (s : State) : Option State :=
  if h : 0 < s.sp.val then
    some { s with sp := ⟨s.sp.val - 1, by omega⟩, pc := s.stack[s.sp.val - 1]'(by omega) }
  else none

/-- The byte of memory at an address (R59). -/
def State.readByte (s : State) (a : Nat) : Byte := Memory.read s.cfg.font s.mem a

/-- One byte of memory written; the checks of R56 and R57 stand before it (`storeFailure`). -/
def State.writeByte (s : State) (a : Nat) (b : Byte) : State := { s with mem := Memory.write s.cfg.font s.mem a b }

/-- A run of bytes written, the first at the lowest address (R51). -/
def State.writeBytes (s : State) (a : Nat) (bs : List Byte) : State :=
  { s with mem := Memory.writeRun s.cfg.font s.mem a bs }

/-- The two bytes a fetch at `PC` reads, in the order of their addresses (R172). -/
def State.fetchBytes (s : State) : List Byte := [s.readByte s.pc.toNat, s.readByte (s.pc.toNat + 1)]

/-- The word a fetch at `PC` reads, `memory[PC] * 256 + memory[PC + 1]` (R50, R172). -/
def State.fetchWord (s : State) : Word := wordOf (s.readByte s.pc.toNat) (s.readByte (s.pc.toNat + 1))

/-- TAKING A FAILURE, the machine's one exception: every piece of state keeps its value but `drawFlag`, which is false, and the
`halted` record is set (R175, R206). Nothing is saved and there is no handler. There is NO RETURN from it: the only way out
is construction (R207). -/
def State.fail (s : State) (f : Failure) : State := { s with drawFlag := false, halted := some f }

/-- `raise <Failure>` inside an instruction: its effects are discarded and the invocation fails (R13, R175). -/
def State.raise (s : State) (f : Failure) : Result := .next (s.fail f)

/-- R200's numeric label of a failure. -/
def Failure.code : Failure → Nat
  | .decodeFailure _ _ => 1
  | .stackOverflow _ => 2
  | .stackUnderflow _ => 3
  | .pcOutOfBounds _ => 4
  | .memOutOfBounds _ _ => 5
  | .fontRegionWrite _ _ => 6
  | .keyIndexOutOfRange _ _ => 7

/-- A word stored at `PC` the way a fetch reads it, high byte first (R50); nothing where `PC` is outside the memory. -/
def State.placeWordAtPc (s : State) (w : Word) : State :=
  if s.pc.toNat ≤ 4094 then s.writeBytes s.pc.toNat [highByte w, lowByte w] else s

end Sys2Proof.Machine
end

