-- ==== Sys2Proof/Machine/Flags.lean ====
section
/-! DEFINITION. The one flag `V[15]` and every computation of it (R24, R130 to R134, R136). `Dxyn`'s collision is in Draw. -/

namespace Sys2Proof.Machine

/-- A flag as a register's value, 1 or 0 (R24). -/
def flagByte (b : Bool) : Byte := if b then 1 else 0

/-- `V[15] <- flag` (R24). -/
def State.writeFlag (s : State) (b : Bool) : State := s.writeV vf (flagByte b)

/-- The carry out of bit 7 of a sum that is not reduced (R130). -/
def carryOut (sum : Nat) : Bool := 255 < sum

/-- No borrow in `a - b`: `a >= b` (R131, R133). -/
def noBorrow (a b : Byte) : Bool := b.toNat ≤ a.toNat

/-- The bit a shift right loses (R132). -/
def lowBit (b : Byte) : Bool := b.getLsbD 0

/-- The bit a shift left loses (R134). -/
def highBit (b : Byte) : Bool := b.getLsbD 7

end Sys2Proof.Machine
end

