-- ==== Sys2Proof/Machine/Operands.lean ====
section
/-! DEFINITION. The operand forms: immediates, data addresses and their checks, the implicit `I` and `V[0]`, sprite coordinates
and bits, key indices, decimal digits (R51, R55 to R57, R78, R147, R155). -/

namespace Sys2Proof.Machine

/-- `zext_16(nnn)` (R78). -/
def addrWord (nnn : Addr12) : Word := nnn.zeroExtend 16

/-- `zext_16(V)` of a register's value (R141, R161, R162). -/
def byteWord (b : Byte) : Word := b.zeroExtend 16

/-- The address of byte `k` of an access based at `I`: the exact sum, never reduced (R55). -/
def State.dataAddr (s : State) (k : Nat) : Nat := s.i.toNat + k

/-- The check of an access of `count` bytes based at `I`, made before any effect: it fails when its highest address is
above 4095, and an access of no byte never fails (R56). -/
def State.accessFailure (s : State) (count : Nat) : Option Failure :=
  if 1 ≤ count ∧ 4095 < s.dataAddr (count - 1) then some (.memOutOfBounds s.i s.pc) else none

/-- The check of a store of `count` bytes based at `I`: that of any access, then `I < 80` (R57, R163, R164). -/
def State.storeFailure (s : State) (count : Nat) : Option Failure :=
  match s.accessFailure count with
  | some f => some f
  | none => if s.i.toNat < 80 then some (.fontRegionWrite s.i s.pc) else none

/-- The row that row `r` of a sprite drawn at `vy` falls on, `(vy + r) mod 32` (R147). -/
def spriteRow (vy : Byte) (r : Nat) : Fin 32 := Fin.ofNat 32 (vy.toNat + r)

/-- The column that column `c` of a sprite drawn at `vx` falls on, `(vx + c) mod 64` (R147). -/
def spriteCol (vx : Byte) (c : Nat) : Fin 64 := Fin.ofNat 64 (vx.toNat + c)

/-- The bit of a sprite byte for column `c`: bit 7 is the leftmost pixel (R51, R147). -/
def spriteBit (b : Byte) (c : Nat) : Bool := b.getLsbD (7 - c)

/-- The key that the value of `V[x]` names, if it names one (R153, R155). -/
def State.keyOf? (s : State) (x : Reg) : Option Key :=
  if h : (s.readV x).toNat < 16 then some ⟨(s.readV x).toNat, h⟩ else none

/-- The least pressed key (R158). -/
def State.lowestPressed? (s : State) : Option Key := (List.finRange 16).find? (fun k => s.keypad[k])

/-- Where a digit's sprite stands: five times the whole byte (R162). -/
def digitAddr (b : Byte) : Word := byteWord b * 5

/-- Hundreds, tens, ones (R163). -/
def decimalDigits (b : Byte) : List Byte :=
  [BitVec.ofNat 8 (b.toNat / 100), BitVec.ofNat 8 (b.toNat / 10 % 10), BitVec.ofNat 8 (b.toNat % 10)]

/-- `V[0]` to `V[x]`, in order (R164). -/
def State.registersUpTo (s : State) (x : Reg) : List Byte := s.v.toList.take (x.val + 1)

/-- `V[0..=x]` loaded from memory at `I`, the others as they are (R165). -/
def State.loadRegistersUpTo (s : State) (x : Reg) : State :=
  { s with v := Vector.ofFn fun r : Reg => if r ≤ x then s.readByte (s.dataAddr r.val) else s.readV r }

/-- The operand of a shift: with `shiftQuirk` false, `V[x] <- V[y]` comes first (R132, R134). -/
def State.prepareShift (s : State) (x y : Reg) : State := if s.cfg.shiftQuirk then s else s.writeV x (s.readV y)

/-- `RandomByte()`: one fresh draw of the free value (R142). -/
def State.drawByte (s : State) : Byte × State := (Config.randomByte s.draws, { s with draws := s.draws + 1 })

end Sys2Proof.Machine
end

