-- ==== Sys2Proof/Machine/Alu.lean ====
section
/-! DEFINITION. Families 6, 7, 8: load and add immediate, the register ALU (R120, R121, R125 to R137). The assignments of each
rule run in the order written and a later one reads what an earlier one wrote (R13, R125, R135). -/

namespace Sys2Proof.Machine

/-- LD Vx, byte (R120). -/
def execLdByte (x : Reg) (kk : Byte) (s : State) : Result := .next (s.writeV x kk).advance

/-- ADD Vx, byte: modulo 256, no flag (R121). -/
def execAddByte (x : Reg) (kk : Byte) (s : State) : Result := .next (s.writeV x (s.readV x + kk)).advance

/-- LD Vx, Vy (R126). -/
def execLdReg (x y : Reg) (s : State) : Result := .next (s.writeV x (s.readV y)).advance

/-- OR Vx, Vy (R127). -/
def execOrReg (x y : Reg) (s : State) : Result := .next (s.writeV x (s.readV x ||| s.readV y)).advance

/-- AND Vx, Vy (R128). -/
def execAndReg (x y : Reg) (s : State) : Result := .next (s.writeV x (s.readV x &&& s.readV y)).advance

/-- XOR Vx, Vy (R129). -/
def execXorReg (x y : Reg) (s : State) : Result := .next (s.writeV x (s.readV x ^^^ s.readV y)).advance

/-- ADD Vx, Vy: the sum is latched, then the carry, then the sum are written (R130). -/
def execAddReg (x y : Reg) (s : State) : Result :=
  let sum := (s.readV x).toNat + (s.readV y).toNat
  .next ((s.writeFlag (carryOut sum)).writeV x (BitVec.ofNat 8 sum)).advance

/-- SUB Vx, Vy: the flag first, then the difference of what the registers hold by then (R131, R135). -/
def execSubReg (x y : Reg) (s : State) : Result :=
  let t := s.writeFlag (noBorrow (s.readV x) (s.readV y))
  .next (t.writeV x (t.readV x - t.readV y)).advance

/-- SHR Vx, Vy (R132, R135). -/
def execShr (x y : Reg) (s : State) : Result :=
  let p := s.prepareShift x y
  let t := p.writeFlag (lowBit (p.readV x))
  .next (t.writeV x (t.readV x >>> 1)).advance

/-- SUBN Vx, Vy (R133, R135). -/
def execSubnReg (x y : Reg) (s : State) : Result :=
  let t := s.writeFlag (noBorrow (s.readV y) (s.readV x))
  .next (t.writeV x (t.readV y - t.readV x)).advance

/-- SHL Vx, Vy (R134, R135). -/
def execShl (x y : Reg) (s : State) : Result :=
  let p := s.prepareShift x y
  let t := p.writeFlag (highBit (p.readV x))
  .next (t.writeV x (t.readV x <<< 1)).advance

end Sys2Proof.Machine
end

