-- ==== Sys2Proof/Machine/Draw.lean ====
section
/-! DEFINITION. Family D: the sprite draw unit (R147). -/

namespace Sys2Proof.Machine

/-- What a draw builds up: the framebuffer and whether a true cell was met, the value that goes to `V[15]` (R147). -/
abbrev DrawAccum := Framebuffer × Bool

/-- A set sprite bit on a cell: a collision if the cell is true, and the cell is toggled (R147). -/
def plotCell (row : Fin 32) (col : Fin 64) (acc : DrawAccum) : DrawAccum :=
  (acc.1.toggle row col, acc.2 || acc.1.cell row col)

/-- The eight columns of one sprite row; a zero bit neither tests nor changes a cell (R147). -/
def plotRow (vx : Byte) (row : Fin 32) (b : Byte) (acc : DrawAccum) : DrawAccum :=
  (List.range 8).foldl (fun acc c => if spriteBit b c then plotCell row (spriteCol vx c) acc else acc) acc

/-- The `n` rows of the sprite at `I`, drawn from `(vx, vy)` onto the framebuffer (R147). -/
def State.plotSprite (s : State) (vx vy : Byte) (n : Nat) : DrawAccum :=
  (List.range n).foldl (fun acc r => plotRow vx (spriteRow vy r) (s.readByte (s.dataAddr r)) acc) (s.fb, false)

/-- DRW Vx, Vy, nibble: the coordinates are read before `V[15]` is written (R147). -/
def execDrw (x y : Reg) (n : Nat) (s : State) : Result :=
  match s.accessFailure n with
  | some f => s.raise f
  | none =>
    let drawn := s.plotSprite (s.readV x) (s.readV y) n
    .next ({ s with fb := drawn.1, drawFlag := true }.writeFlag drawn.2).advance

end Sys2Proof.Machine
end

