-- ==== Sys2Proof/Machine/Flow.lean ====
section
/-! DEFINITION. Families 0, 1, 2 and B: clear, return, jump, call, indexed jump (R100 to R103, R141). -/

namespace Sys2Proof.Machine

/-- CLS (R100). -/
def execCls (s : State) : Result := .next { s with fb := blankFramebuffer, drawFlag := true }.advance

/-- RET: pop, then the ordinary advance (R101, R174). -/
def execRet (s : State) : Result :=
  match s.popPc? with
  | none => s.raise (.stackUnderflow s.pc)
  | some t => .next t.advance

/-- JP addr (R102). -/
def execJp (nnn : Addr12) (s : State) : Result := .next (s.jump (addrWord nnn))

/-- CALL addr: the address of the CALL itself is pushed (R103). -/
def execCall (nnn : Addr12) (s : State) : Result :=
  match s.pushPc? with
  | none => s.raise (.stackOverflow s.pc)
  | some t => .next (t.jump (addrWord nnn))

/-- JP V0, addr: a 16-bit sum, not reduced to 12 bits (R141). -/
def execJpV0 (nnn : Addr12) (s : State) : Result := .next (s.jump (byteWord (s.readV 0) + addrWord nnn))

end Sys2Proof.Machine
end

