-- ==== Sys2Proof/Machine/Keypad.lean ====
section
/-! DEFINITION. The keypad instructions: family E's skips and the key wait `Fx0A` (R153 to R156, R158). -/

namespace Sys2Proof.Machine

/-- SKP Vx: skip when the key that `V[x]` names is pressed (R153, R155). PRESUMED (log 2): the polarity. -/
def execSkp (x : Reg) (s : State) : Result :=
  match s.keyOf? x with
  | none => s.raise (.keyIndexOutOfRange (s.readV x) s.pc)
  | some k => .next (s.skipIf s.keypad[k])

/-- SKNP Vx: skip when the key that `V[x]` names is not pressed (R154, R155). PRESUMED (log 2): the polarity. -/
def execSknp (x : Reg) (s : State) : Result :=
  match s.keyOf? x with
  | none => s.raise (.keyIndexOutOfRange (s.readV x) s.pc)
  | some k => .next (s.skipIf (!s.keypad[k]))

/-- LD Vx, K: the least pressed key; with none pressed nothing changes, `PC` included, and the instruction runs again at the next
CPU tick (R158). -/
def execLdVxK (x : Reg) (s : State) : Result :=
  match s.lowestPressed? with
  | some k => .next (s.writeV x (BitVec.ofNat 8 k.val)).advance
  | none => .next s

end Sys2Proof.Machine
end

