-- ==== Sys2Proof/Machine/Misc.lean ====
section
/-! DEFINITION. Families A and C and the rest of family F: index, random byte, timers, digit address, BCD, block transfer (R140,
R142, R157, R159 to R165). -/

namespace Sys2Proof.Machine

/-- LD I, addr (R140). -/
def execLdI (nnn : Addr12) (s : State) : Result := .next { s with i := addrWord nnn }.advance

/-- RND Vx, byte: a fresh random byte ANDed with `kk` (R142). -/
def execRnd (x : Reg) (kk : Byte) (s : State) : Result :=
  let drawn := s.drawByte
  .next (drawn.2.writeV x (drawn.1 &&& kk)).advance

/-- LD Vx, DT (R157). -/
def execLdVxDt (x : Reg) (s : State) : Result := .next (s.writeV x s.dt).advance

/-- LD DT, Vx (R159). -/
def execLdDtVx (x : Reg) (s : State) : Result := .next { s with dt := s.readV x }.advance

/-- LD ST, Vx (R160). -/
def execLdStVx (x : Reg) (s : State) : Result := .next { s with st := s.readV x }.advance

/-- ADD I, Vx: modulo 65536, no flag (R161). -/
def execAddIVx (x : Reg) (s : State) : Result := .next { s with i := s.i + byteWord (s.readV x) }.advance

/-- LD F, Vx (R162). -/
def execLdFVx (x : Reg) (s : State) : Result := .next { s with i := digitAddr (s.readV x) }.advance

/-- LD B, Vx: three decimal digits at `I` (R163). -/
def execLdBVx (x : Reg) (s : State) : Result :=
  match s.storeFailure 3 with
  | some f => s.raise f
  | none => .next (s.writeBytes s.i.toNat (decimalDigits (s.readV x))).advance

/-- LD [I], Vx: `V[0..=x]` to memory at `I`, which stays (R164). -/
def execLdMemVx (x : Reg) (s : State) : Result :=
  match s.storeFailure (x.val + 1) with
  | some f => s.raise f
  | none => .next (s.writeBytes s.i.toNat (s.registersUpTo x)).advance

/-- LD Vx, [I]: memory at `I` to `V[0..=x]`; `I` stays (R165). -/
def execLdVxMem (x : Reg) (s : State) : Result :=
  match s.accessFailure (x.val + 1) with
  | some f => s.raise f
  | none => .next (s.loadRegistersUpTo x).advance

end Sys2Proof.Machine
end

