-- ==== Sys2Proof/Machine/Invoke.lean ====
section
/-! DEFINITION. One invocation of the Decoder/Executor: fetch, decode, execute, advance or fail (R170 to R177). -/

namespace Sys2Proof.Machine

/-- `Invoke` (R176): `drawFlag` is cleared, the fetch bound is checked (R171), the word is fetched and decoded (R172, R173), and
the instruction runs. -/
def invoke (s : State) : Result :=
  let t := { s with drawFlag := false }
  if 4094 < t.pc.toNat then t.raise (.pcOutOfBounds t.pc)
  else
    match decode t.fetchBytes with
    | .error _ => t.raise (.decodeFailure t.fetchWord t.pc)
    | .ok i => exec i t

end Sys2Proof.Machine
end

