-- ==== Sys2Proof/Machine/Scheduler.lean ====
section
/-! DEFINITION. The Timer Unit, the Cycle Scheduler and the host's moves (R180 to R194, R204, R219). One `advance` call is many
steps here, each one pass of a loop of R182's pseudocode; `phase` is where that pseudocode stands. -/

namespace Sys2Proof.Machine

/-- The period `1/rate` of a threshold comparator, exact (R181, R182). -/
def period (rate : Nat) : Time :=
  if h : rate = 0 then 0 else { num := 1, den := rate, den_nz := h, reduced := Nat.coprime_one_left rate }

/-- The comparator `accumulator >= 1/rate` (R184), over whole numbers: `den <= num * rate`. -/
def periodDue (rate : Nat) (accum : Time) : Bool := (accum.den : Int) ≤ accum.num * rate

/-- A timer counts down to a floor of 0 (R185). -/
def countDown (b : Byte) : Byte := if 0 < b.toNat then b - 1 else b

/-- `TimerTick()`: both timers, each on its own (R185). -/
def timerTick (s : State) : State := { s with dt := countDown s.dt, st := countDown s.st }

/-- The host's move between two calls: the next of `inputs`. With none the machine waits as it is (R232). -/
def hostMove (s : State) : Result :=
  match s.inputs with
  | [] => .next s
  | .setKeypad keys :: rest => .next { s with keypad := keys, inputs := rest }
  | .advance elapsed :: rest =>
    if (HostInput.advance elapsed).wf then
      .next { s with timerAccum := s.timerAccum + elapsed, phase := .timerLoop elapsed, inputs := rest }
    else .refused (.negativeElapsed elapsed)

/-- One pass of the timer loop: a tick while a period is due, then on to the CPU loop (R182, R183). -/
def timerLoopPass (elapsed : Time) (s : State) : Result :=
  if periodDue timerRate s.timerAccum then
    .next (timerTick { s with timerAccum := s.timerAccum - period timerRate })
  else .next { s with cpuAccum := s.cpuAccum + elapsed, phase := .cpuLoop }

/-- The return of a call that did not fail, with the host's check of `PC` after it (R193, R204 a). -/
def endCall (s : State) : State :=
  { s with phase := .idle, halted := if 4095 < s.pc.toNat then some (.pcOutOfBounds s.pc) else s.halted }

/-- One pass of the CPU loop: an invocation while a period is due, then the return (R182, R186). A period is subtracted before the
invocation, so a failed one has used its own (R187). -/
def cpuLoopPass (s : State) : Result :=
  if periodDue s.cfg.cpuFrequency s.cpuAccum then
    invoke { s with cpuAccum := s.cpuAccum - period s.cfg.cpuFrequency }
  else .next (endCall s)

/-- The next step of the three agents and the host. A configuration that is not valid is no machine (R7), and a halted machine
has no step (R206). -/
def schedule (s : State) : Result :=
  if s.cfg.wf then
    match s.halted with
    | some cause => .fault (.halted cause)
    | none =>
      match s.phase with
      | .idle => hostMove s
      | .timerLoop elapsed => timerLoopPass elapsed s
      | .cpuLoop => cpuLoopPass s
  else .refused .cpuFrequencyBelowOne

/-- A state whose very next step is an invocation that fetches `w`: the word stands at `PC`, and the scheduler is in the CPU loop
of a call with exactly one period due (log 6). -/
def State.readyToInvoke (s : State) (w : Word) : State :=
  { s.placeWordAtPc w with phase := .cpuLoop, cpuAccum := period s.cfg.cpuFrequency }

/-- Construction and the ROM loader (R62, R218, R230, R233): a machine with a configuration and a program at 512, before the first
`advance` call, or a refusal. -/
def construct (cfg : Config) (rom : List Byte) : Result :=
  if cfg.wf then
    if romFits rom then .next ({ State.reset with cfg := cfg }.writeBytes programBase rom)
    else .refused (.romTooLong rom.length)
  else .refused .cpuFrequencyBelowOne

/-! ## One call as the spec writes it -/

/-- The timer loop of R182 with its number of passes bounded. -/
def runTimerLoop : Nat → State → State
  | 0, s => s
  | passes + 1, s =>
    if periodDue timerRate s.timerAccum then
      runTimerLoop passes (timerTick { s with timerAccum := s.timerAccum - period timerRate })
    else s

/-- The CPU loop of R182 with its number of passes bounded: it stops at the first failure (R187). -/
def runCpuLoop : Nat → State → Result
  | 0, s => .next s
  | passes + 1, s =>
    if periodDue s.cfg.cpuFrequency s.cpuAccum then
      match invoke { s with cpuAccum := s.cpuAccum - period s.cfg.cpuFrequency } with
      | .next t => if t.halted.isSome then .next t else runCpuLoop passes t
      | .fault r => .fault r
      | .refused r => .refused r
    else .next s

/-- How many periods of `1/rate` an accumulator holds: `floor(rate * accum)` (R190). -/
def periodsIn (rate : Nat) (accum : Time) : Nat := (accum * rate).floor.toNat

/-- `advance(elapsed)` whole, as R182 writes it: the timer loop, then the CPU loop. `halted` says whether it returned failure. -/
def advanceCall (elapsed : Time) (s : State) : Result :=
  let t := { s with timerAccum := s.timerAccum + elapsed }
  let u := runTimerLoop (periodsIn timerRate t.timerAccum) t
  let w := { u with cpuAccum := u.cpuAccum + elapsed }
  runCpuLoop (periodsIn w.cfg.cpuFrequency w.cpuAccum) w

/-! ## What the host sees -/

/-- The tone gate, `st > 0` (R217). -/
def State.toneOn (s : State) : Bool := 0 < s.st.toNat

/-- What the CORE offers its host after a call: the framebuffer, whether to render it, the tone gate, `PC`, and the failure line
(R214, R216, R217, R219). -/
structure HostView where
  fb : Framebuffer
  render : Bool
  tone : Bool
  pc : Word
  failure : Option Failure
  deriving DecidableEq, Repr

/-- The host's view of a state (R214). -/
def State.hostView (s : State) : HostView :=
  { fb := s.fb, render := s.drawFlag, tone := s.toneOn, pc := s.pc, failure := s.halted }

end Sys2Proof.Machine
end

