-- ==== Sys2Proof/Machine/Step.lean ====
section
/-! DEFINITION. One step of the machine, and a machine about to run a given instruction. -/

namespace Sys2Proof.Machine

/-- One step: one pass of the scheduler's loops, one invocation of the Decoder/Executor at most, or one move of the host. -/
def step (s : State) : Host.Outcome State Fault Refusal := schedule s

/-- `s` with the instruction whose table bits are `w` stored at `PC` and one CPU period due, so that the next step fetches and
runs it. Instructions have one word, so bits above 15 are none of theirs (R75). -/
def State.withFetchWord (s : State) (nbits w : Nat) : State := s.readyToInvoke (BitVec.ofNat 16 (w % 2 ^ nbits))

end Sys2Proof.Machine
end

