-- ==== Sys2Proof/Safety.lean ====
section
/-! DEFINITION. The terms the claims use: what two states share, which registers an instruction may write, what a safe state is, and
which states a machine can reach. -/

namespace Sys2Proof.Machine

/-! ### What two states share -/

/-- Every address reads in `t` as in `s`. -/
def SameMemory (s t : State) : Prop := ∀ a : Nat, t.readByte a = s.readByte a

/-- Every address outside the `count` bytes from `base` reads in `t` as in `s`. -/
def SameMemoryOutside (s t : State) (base count : Nat) : Prop :=
  ∀ a : Nat, a < base ∨ base + count ≤ a → t.readByte a = s.readByte a

/-- Every general register but those listed holds in `t` what it holds in `s`. -/
def SameRegistersBut (s t : State) (rs : List Reg) : Prop := ∀ r : Reg, r ∉ rs → t.readV r = s.readV r

/-- `t` is `s` but for `PC`; all of memory reads as before. -/
def ChangesOnlyPc (s t : State) : Prop := t = { s with pc := t.pc } ∧ SameMemory s t

/-- `t` is `s` but for `PC` and the listed general registers; all of memory reads as before. -/
def ChangesOnlyRegisters (s t : State) (rs : List Reg) : Prop :=
  t = { s with v := t.v, pc := t.pc } ∧ SameRegistersBut s t rs ∧ SameMemory s t

/-! ### Which registers an instruction may write (R24) -/

/-- The six instructions that write `V[15]` as a side effect (R24). -/
def writesFlag : Instr → Bool
  | .addReg _ _ | .subReg _ _ | .shr _ _ | .subnReg _ _ | .shl _ _ | .drw _ _ _ => true
  | .cls | .ret | .jp _ | .call _ | .seByte _ _ | .sneByte _ _ | .seReg _ _ | .ldByte _ _ | .addByte _ _ | .ldReg _ _
  | .orReg _ _ | .andReg _ _ | .xorReg _ _ | .sneReg _ _ | .ldI _ | .jpV0 _ | .rnd _ _ | .skp _ | .sknp _ | .ldVxDt _
  | .ldVxK _ | .ldDtVx _ | .ldStVx _ | .addIVx _ | .ldFVx _ | .ldBVx _ | .ldMemVx _ | .ldVxMem _ => false

/-- The registers an instruction names as its destination. -/
def isDestination : Instr → Reg → Bool
  | .ldByte x _, r | .addByte x _, r | .ldReg x _, r | .orReg x _, r | .andReg x _, r | .xorReg x _, r | .addReg x _, r
  | .subReg x _, r | .shr x _, r | .subnReg x _, r | .shl x _, r | .rnd x _, r | .ldVxDt x, r | .ldVxK x, r => r == x
  | .ldVxMem x, r => r ≤ x
  | .cls, _ | .ret, _ | .jp _, _ | .call _, _ | .seByte _ _, _ | .sneByte _ _, _ | .seReg _ _, _ | .sneReg _ _, _
  | .ldI _, _ | .jpV0 _, _ | .drw _ _ _, _ | .skp _, _ | .sknp _, _ | .ldDtVx _, _ | .ldStVx _, _ | .addIVx _, _
  | .ldFVx _, _ | .ldBVx _, _ | .ldMemVx _, _ => false

/-! ### The sprite a draw puts on the screen -/

/-- Cell `(row, col)` is where a set bit of the `n`-row sprite at `I` falls when it is drawn from `(vx, vy)`, coordinates wrapping
modulo 32 and 64 (R147). -/
def SpriteHits (s : State) (vx vy : Byte) (n : Nat) (row : Fin 32) (col : Fin 64) : Prop :=
  ∃ r c : Nat, r < n ∧ c < 8 ∧ row.val = (vy.toNat + r) % 32 ∧ col.val = (vx.toNat + c) % 64 ∧
    (s.readByte (s.dataAddr r)).getLsbD (7 - c) = true

/-! ### Safe states -/

/-- Memory is in its canonical form. -/
def MemoryCanonical (s : State) : Prop := Memory.wf s.cfg.font s.mem

/-- Bytes 0 to 79 hold the font (R33). -/
def FontIntact (s : State) : Prop := ∀ (a : Nat) (h : a < 80), s.readByte a = s.cfg.font[a]

/-- `PC` is at most 4350 and every live return address is one an instruction can stand at (R23, R171). -/
def PcBounded (s : State) : Prop :=
  s.pc.toNat ≤ 4350 ∧ ∀ k : Fin 16, k.val < s.sp.val → (s.stack[k]).toNat ≤ 4094

/-- The accumulators are where the scheduler's control point allows (R189): never negative, and each below its period once
its loop has run. -/
def ClocksInRange (s : State) : Prop :=
  0 ≤ s.timerAccum ∧ 0 ≤ s.cpuAccum ∧
    match s.phase with
    | .idle => s.timerAccum < 1 / 60 ∧ s.cpuAccum < 1 / (s.cfg.cpuFrequency : Rat)
    | .timerLoop elapsed => 0 ≤ elapsed ∧ s.cpuAccum < 1 / (s.cfg.cpuFrequency : Rat)
    | .cpuLoop => s.timerAccum < 1 / 60

/-- A safe state: all of the above, in a machine that can be constructed. -/
structure Safe (s : State) : Prop where
  configured : s.cfg.wf = true
  canonical : MemoryCanonical s
  font : FontIntact s
  pc : PcBounded s
  clocks : ClocksInRange s

/-- `t` comes from `s` in some number of steps, each of which answers a next state. -/
inductive StepsTo : State → State → Prop where
  | refl (s : State) : StepsTo s s
  | head {s t u : State} (h : step s = .next t) (rest : StepsTo t u) : StepsTo s u

/-- The states a machine can reach: any configuration and program that `construct` accepts, any host. -/
inductive Reachable : State → Prop where
  | constructed {cfg : Config} {rom : List Byte} {inputs : List HostInput} {s : State}
      (h : construct cfg rom = .next s) : Reachable { s with inputs := inputs }
  | stepped {s t : State} (hs : Reachable s) (h : step s = .next t) : Reachable t

end Sys2Proof.Machine
end

