-- ==== Sys2Proof/Certificates/Slice0/Obligations.lean ====
section
/-! DEFINITION. What is claimed of the model, for the provers: each docstring names the rule or the section it comes from. -/

open Sys2Proof Sys2Proof.Machine

/-! ## Construction and reset -/

/-- 70_reset_and_hazards.md (R231): the value of every piece of state after construction with the default configuration. `I`, `SP`,
the timers, the screen, the keypad, `drawFlag` and the accumulators rest on the spec's decisions D3 and D4. The stack entries,
which the spec leaves unspecified, are not mentioned. -/
def Obligations.ResetStateHoldsTheConstructionValues : Prop :=
  (∀ r : Reg, State.reset.readV r = 0) ∧ State.reset.i = 0 ∧ State.reset.pc = 512 ∧ State.reset.sp = 0 ∧
  State.reset.dt = 0 ∧ State.reset.st = 0 ∧
  (∀ (a : Nat) (h : a < 80), State.reset.readByte a = State.reset.cfg.font[a]) ∧
  (∀ a : Nat, 80 ≤ a → State.reset.readByte a = 0) ∧
  (∀ (row : Fin 32) (col : Fin 64), State.reset.fb.cell row col = false) ∧ (∀ k : Key, State.reset.keypad[k] = false) ∧
  State.reset.drawFlag = false ∧ State.reset.timerAccum = 0 ∧ State.reset.cpuAccum = 0 ∧ State.reset.halted = none ∧
  State.reset.cfg.shiftQuirk = true ∧ State.reset.cfg.cpuFrequency = 700

/-- The invariants of the step hold after construction (10_state.md, 49_scheduler_timers.md). The zero accumulators and `SP` are the
spec's decisions D3 and D4 (log 9). -/
def Obligations.ResetStateIsSafe : Prop := Safe State.reset

/-- 20_memory.md, 70_reset_and_hazards.md: a valid configuration and a program that fits give a safe machine that is the reset state
but for the configuration and memory, with the font at 0, the program at 512 and zero elsewhere. An invalid configuration (D21)
and a program that is too long (D22) are refused. -/
def Obligations.ConstructionPlacesTheProgramAt512 : Prop :=
  ∀ (cfg : Config) (rom : List Byte),
    (1 ≤ cfg.cpuFrequency → rom.length ≤ 3584 →
      ∃ s, construct cfg rom = .next s ∧ s = { State.reset with cfg := cfg, mem := s.mem } ∧ Safe s ∧
        (∀ (j : Nat) (h : j < rom.length), s.readByte (512 + j) = rom[j]) ∧
        (∀ (a : Nat) (h : a < 80), s.readByte a = cfg.font[a]) ∧
        (∀ a : Nat, 80 ≤ a → (a < 512 ∨ 512 + rom.length ≤ a) → s.readByte a = 0)) ∧
    (cfg.cpuFrequency = 0 → construct cfg rom = .refused .cpuFrequencyBelowOne) ∧
    (1 ≤ cfg.cpuFrequency → 3584 < rom.length → construct cfg rom = .refused (.romTooLong rom.length))

/-! ## Encoding -/

/-- 30_encoding.md: no bit of any encoding is dropped. Every well-formed instruction decodes from its own two bytes, high byte
first, whatever its operands. -/
def Obligations.DecodeOfEncodeIsTheInstruction : Prop :=
  ∀ i : Instr, i.wf = true → decode [highByte (encode i), lowByte (encode i)] = .ok i

/-- 30_encoding.md: each legal word has one meaning. What a word decodes to is well formed and encodes to that word. -/
def Obligations.EncodeOfDecodeIsTheWord : Prop :=
  ∀ (w : Word) (i : Instr), decodeWord w = .ok i → i.wf = true ∧ encode i = w

/-- R80: a word decodes to an instruction on a row that selects it, a word some row selects is legal, no two rows overlap. -/
def Obligations.WordsDecodeByTheOpcodeMap : Prop :=
  (∀ (w : Word) (i : Instr), decodeWord w = .ok i → rowOf i ∈ opcodeMap ∧ (rowOf i).selects w = true) ∧
  (∀ (w : Word) (r : OpcodeRow), r ∈ opcodeMap → r.selects w = true → ∃ i, decodeWord w = .ok i ∧ rowOf i = r) ∧
  (∀ (w : Word) (r r' : OpcodeRow), r ∈ opcodeMap → r' ∈ opcodeMap → r.selects w = true → r'.selects w = true → r = r')

/-- R86, R87: the illegal words of families 8, E and F, for every `x` and `y`. -/
def Obligations.UnlistedSubOpcodesOfFamilies8EFAreIllegal : Prop :=
  ∀ w : Word,
    (familyOf w = 0x8#4 → (fieldN w ∈ [0x8#4, 0x9#4, 0xA#4, 0xB#4, 0xC#4, 0xD#4, 0xF#4]) →
      decodeWord w = .error .family8LowNibble) ∧
    (familyOf w = 0xE#4 → fieldKK w ∉ [0x9E#8, 0xA1#8] → decodeWord w = .error .familyELowByte) ∧
    (familyOf w = 0xF#4 →
      fieldKK w ∉ [0x07#8, 0x0A#8, 0x15#8, 0x18#8, 0x1E#8, 0x29#8, 0x33#8, 0x55#8, 0x65#8] →
      decodeWord w = .error .familyFLowByte)

/-- 30_encoding.md: families 0, 5 and 9 compare every fixed bit of their patterns. This is the spec's decision D6 and D7. -/
def Obligations.Families059CompareEveryFixedBit : Prop :=
  ∀ w : Word,
    (familyOf w = 0x0#4 → w ≠ 0x00E0#16 → w ≠ 0x00EE#16 → decodeWord w = .error .family0NotListed) ∧
    (familyOf w = 0x5#4 → fieldN w ≠ 0x0#4 → decodeWord w = .error .family5LowNibble) ∧
    (familyOf w = 0x9#4 → fieldN w ≠ 0x0#4 → decodeWord w = .error .family9LowNibble)

/-- 95_test_vectors.md: words of the spec's listings, written out, decode to the instructions the listings name. -/
def Obligations.ListedWordsDecodeToTheirInstructions : Prop :=
  decode [0x60, 0xEA] = .ok (.ldByte 0 0xEA) ∧ decode [0xA3, 0x00] = .ok (.ldI 0x300) ∧
  decode [0x22, 0x0A] = .ok (.call 0x20A) ∧ decode [0xF2, 0x65] = .ok (.ldVxMem 2) ∧
  decode [0x80, 0x14] = .ok (.addReg 0 1) ∧ decode [0xD0, 0x12] = .ok (.drw 0 1 2) ∧
  decode [0xE0, 0x9E] = .ok (.skp 0) ∧ decode [0x31, 0x00] = .ok (.seByte 1 0) ∧ decode [0x00, 0xEE] = .ok .ret ∧
  decode [0x00, 0x00] = .error .family0NotListed

/-! ## The step around every instruction -/

/-- R50: the fetched word is `memory[PC] * 256 + memory[PC+1]`, at any `PC`, and it is what is decoded. -/
def Obligations.FetchIsBigEndian : Prop :=
  ∀ s : State,
    s.fetchWord.toNat = (s.readByte s.pc.toNat).toNat * 256 + (s.readByte (s.pc.toNat + 1)).toNat ∧
    decode s.fetchBytes = decodeWord s.fetchWord

/-- 48_step_cycle.md, 49_scheduler_timers.md: where the CPU loop has a period due and the bytes at `PC` decode to `i`, a step is
`exec i` after `drawFlag` is cleared and one period is subtracted. -/
def Obligations.StepRunsTheDecodedInstruction : Prop :=
  ∀ (s : State) (i : Instr), 1 ≤ s.cfg.cpuFrequency → s.halted = none → s.phase = .cpuLoop →
    1 / (s.cfg.cpuFrequency : Rat) ≤ s.cpuAccum → s.pc.toNat ≤ 4094 → decode s.fetchBytes = .ok i →
    step s = exec i { s with drawFlag := false, cpuAccum := s.cpuAccum - 1 / (s.cfg.cpuFrequency : Rat) }

/-- R85: a word that no row selects is a decode failure: nothing changes but `drawFlag`, cleared, and the halt; the machine
takes no further step. How this model says "halts" is log 8. -/
def Obligations.IllegalWordHaltsTheMachine : Prop :=
  ∀ s : State, s.pc.toNat ≤ 4094 → (∀ r ∈ opcodeMap, r.selects s.fetchWord = false) →
    ∃ t, invoke s = .next t ∧
      t = { s with drawFlag := false, halted := some (.decodeFailure s.fetchWord s.pc) } ∧
      (1 ≤ s.cfg.cpuFrequency → step t = .fault (.halted (.decodeFailure s.fetchWord s.pc)))

/-- 48_step_cycle.md: an invocation with `PC > 4094` fails before it fetches. This is the spec's decision D10. -/
def Obligations.FetchPastTheMemoryFails : Prop :=
  ∀ s : State, 4094 < s.pc.toNat →
    invoke s = .next { s with drawFlag := false, halted := some (.pcOutOfBounds s.pc) }

/-- 60_exceptions.md: a halted machine takes no step, whatever its state. The record is the spec's decision D20. -/
def Obligations.HaltedMachineTakesNoStep : Prop :=
  ∀ (s : State) (f : Failure), 1 ≤ s.cfg.cpuFrequency → s.halted = some f → step s = .fault (.halted f)

/-- 48_step_cycle.md: whatever fails an invocation, every piece of state keeps its value but `drawFlag`, which is false, and
`halted`. For the failures the source does not name this is the spec's decision D9. -/
def Obligations.FailureLeavesTheStateAsItWas : Prop :=
  ∀ s t : State, s.halted = none → invoke s = .next t → t.halted ≠ none →
    t = { s with drawFlag := false, halted := t.halted }

/-- 48_step_cycle.md: an invocation writes none of the keypad, the configuration, the accumulators, and neither the scheduler's
control point nor the host's inputs. -/
def Obligations.InvocationLeavesTheOtherAgentsAlone : Prop :=
  ∀ s t : State, invoke s = .next t →
    t.keypad = s.keypad ∧ t.cfg = s.cfg ∧ t.timerAccum = s.timerAccum ∧ t.cpuAccum = s.cpuAccum ∧
    t.phase = s.phase ∧ t.inputs = s.inputs

/-! ## Families 0, 1, 2, B: flow -/

/-- R100: `CLS` makes every cell false and sets `drawFlag`; nothing else changes. -/
def Obligations.ClsClearsTheScreen : Prop :=
  ∀ s : State, ∃ t, exec .cls s = .next t ∧
    (∀ (row : Fin 32) (col : Fin 64), t.fb.cell row col = false) ∧ t.drawFlag = true ∧ t.pc = s.pc + 2 ∧
    t = { s with fb := t.fb, drawFlag := t.drawFlag, pc := t.pc } ∧ SameMemory s t

/-- R102: `JP addr` puts `nnn` in `PC` with no advance; nothing else changes. -/
def Obligations.JpLoadsPc : Prop :=
  ∀ (nnn : Addr12) (s : State), ∃ t, exec (.jp nnn) s = .next t ∧ t.pc.toNat = nnn.toNat ∧ ChangesOnlyPc s t

/-- R103: `CALL addr` stores its own address in `stack[SP]`, counts `SP` up and jumps; the other entries stay. With 16 frames in use it
fails, and `SP`, the stack and `PC` stay. How this model says "fails" is log 8. -/
def Obligations.CallPushesItsOwnAddress : Prop :=
  ∀ (nnn : Addr12) (s : State),
    (∀ h : s.sp.val < 16, ∃ t, exec (.call nnn) s = .next t ∧ t.stack[s.sp.val] = s.pc ∧ t.sp.val = s.sp.val + 1 ∧
      t.pc.toNat = nnn.toNat ∧ (∀ k : Fin 16, k.val ≠ s.sp.val → t.stack[k] = s.stack[k]) ∧
      t = { s with stack := t.stack, sp := t.sp, pc := t.pc } ∧ SameMemory s t) ∧
    (s.sp.val = 16 → exec (.call nnn) s = .next { s with drawFlag := false, halted := some (.stackOverflow s.pc) })

/-- 40_family0_2_flow.md (R101): `RET` counts `SP` down and resumes at the popped entry plus 2; the stack's contents stay. With no frame
in use it fails, and `SP` and `PC` stay: that state after the failure is the spec's decision D9, the record its decision D20. -/
def Obligations.RetResumesAfterTheCall : Prop :=
  ∀ s : State,
    (∀ h : 0 < s.sp.val, ∃ t, exec .ret s = .next t ∧ t.sp.val = s.sp.val - 1 ∧
      t.pc = s.stack[s.sp.val - 1]'(by omega) + 2 ∧ t = { s with sp := t.sp, pc := t.pc } ∧ SameMemory s t) ∧
    (s.sp.val = 0 → exec .ret s = .next { s with drawFlag := false, halted := some (.stackUnderflow s.pc) })

/-- 95_test_vectors.md E8: a `CALL` and the `RET` that answers it leave the machine at the instruction after the `CALL`, with the
stack pointer and every live entry as they were. -/
def Obligations.CallThenRetReturnsAfterTheCall : Prop :=
  ∀ (nnn : Addr12) (s t : State), s.sp.val < 16 → exec (.call nnn) s = .next t →
    ∃ u, exec .ret t = .next u ∧ u = { s with pc := s.pc + 2, stack := u.stack } ∧
      (∀ k : Fin 16, k.val < s.sp.val → u.stack[k] = s.stack[k]) ∧ SameMemory s u

/-- R141: `JP V0, addr` puts the sum of `V[0]` and `nnn`, not reduced to 12 bits, in `PC` with no advance. -/
def Obligations.JpV0AddsTheOffset : Prop :=
  ∀ (nnn : Addr12) (s : State), ∃ t, exec (.jpV0 nnn) s = .next t ∧
    t.pc.toNat = (s.readV 0).toNat + nnn.toNat ∧ ChangesOnlyPc s t

/-! ## Families 3, 4, 5, 9: skips on registers -/

/-- R110 to R113: each skip moves `PC` by 4 when its condition holds and by 2 when not; no register or flag changes. -/
def Obligations.RegisterSkipsMovePcByTwoOrFour : Prop :=
  ∀ (x y : Reg) (kk : Byte) (s : State),
    (∃ t, exec (.seByte x kk) s = .next t ∧ (s.readV x = kk → t.pc = s.pc + 4) ∧ (s.readV x ≠ kk → t.pc = s.pc + 2) ∧
      ChangesOnlyPc s t) ∧
    (∃ t, exec (.sneByte x kk) s = .next t ∧ (s.readV x ≠ kk → t.pc = s.pc + 4) ∧ (s.readV x = kk → t.pc = s.pc + 2) ∧
      ChangesOnlyPc s t) ∧
    (∃ t, exec (.seReg x y) s = .next t ∧ (s.readV x = s.readV y → t.pc = s.pc + 4) ∧
      (s.readV x ≠ s.readV y → t.pc = s.pc + 2) ∧ ChangesOnlyPc s t) ∧
    (∃ t, exec (.sneReg x y) s = .next t ∧ (s.readV x ≠ s.readV y → t.pc = s.pc + 4) ∧
      (s.readV x = s.readV y → t.pc = s.pc + 2) ∧ ChangesOnlyPc s t)

/-! ## Families 6, 7, 8: registers -/

/-- R120, R121: load immediate; add immediate modulo 256 with no flag. -/
def Obligations.ImmediateLoadAndAdd : Prop :=
  ∀ (x : Reg) (kk : Byte) (s : State),
    (∃ t, exec (.ldByte x kk) s = .next t ∧ t.readV x = kk ∧ t.pc = s.pc + 2 ∧ ChangesOnlyRegisters s t [x]) ∧
    (∃ t, exec (.addByte x kk) s = .next t ∧ (t.readV x).toNat = ((s.readV x).toNat + kk.toNat) % 256 ∧
      t.pc = s.pc + 2 ∧ ChangesOnlyRegisters s t [x])

/-- R126 to R129: copy, OR, AND, XOR, bit by bit, with no flag side effect. -/
def Obligations.CopyAndBitwiseWriteOnlyTheDestination : Prop :=
  ∀ (x y : Reg) (s : State),
    (∃ t, exec (.ldReg x y) s = .next t ∧ t.readV x = s.readV y ∧ t.pc = s.pc + 2 ∧ ChangesOnlyRegisters s t [x]) ∧
    (∃ t, exec (.orReg x y) s = .next t ∧
      (∀ b < 8, (t.readV x).getLsbD b = ((s.readV x).getLsbD b || (s.readV y).getLsbD b)) ∧ t.pc = s.pc + 2 ∧
      ChangesOnlyRegisters s t [x]) ∧
    (∃ t, exec (.andReg x y) s = .next t ∧
      (∀ b < 8, (t.readV x).getLsbD b = ((s.readV x).getLsbD b && (s.readV y).getLsbD b)) ∧ t.pc = s.pc + 2 ∧
      ChangesOnlyRegisters s t [x]) ∧
    (∃ t, exec (.xorReg x y) s = .next t ∧
      (∀ b < 8, (t.readV x).getLsbD b = ((s.readV x).getLsbD b ^^ (s.readV y).getLsbD b)) ∧ t.pc = s.pc + 2 ∧
      ChangesOnlyRegisters s t [x])

/-- 43_family8_alu.md (R130): the sum modulo 256 goes to `V[x]` and the carry to `V[15]`. That the sum is written last where `x = 15` is
the spec's decision D15 (log 14). -/
def Obligations.AddReportsItsCarry : Prop :=
  ∀ (x y : Reg) (s : State), ∃ t, exec (.addReg x y) s = .next t ∧
    (t.readV x).toNat = ((s.readV x).toNat + (s.readV y).toNat) % 256 ∧
    (x ≠ 15 → t.readV 15 = if 255 < (s.readV x).toNat + (s.readV y).toNat then 1 else 0) ∧
    t.pc = s.pc + 2 ∧ ChangesOnlyRegisters s t [x, 15]

/-- 43_family8_alu.md (R131, R133): the no-borrow flag goes to `V[15]`, the difference modulo 256 to `V[x]`. Where `x` or `y` is 15 the
flag is written first and the difference reads it: the spec's decision D15 (log 14). -/
def Obligations.SubtractionsReportNoBorrow : Prop :=
  ∀ (x y : Reg) (s : State),
    (∃ t, exec (.subReg x y) s = .next t ∧
      (let flag : Byte := if (s.readV y).toNat ≤ (s.readV x).toNat then 1 else 0
       let vx := if x = 15 then flag else s.readV x
       let vy := if y = 15 then flag else s.readV y
       (t.readV x).toNat = (256 + vx.toNat - vy.toNat) % 256 ∧ (x ≠ 15 → t.readV 15 = flag)) ∧
      t.pc = s.pc + 2 ∧ ChangesOnlyRegisters s t [x, 15]) ∧
    (∃ t, exec (.subnReg x y) s = .next t ∧
      (let flag : Byte := if (s.readV x).toNat ≤ (s.readV y).toNat then 1 else 0
       let vx := if x = 15 then flag else s.readV x
       let vy := if y = 15 then flag else s.readV y
       (t.readV x).toNat = (256 + vy.toNat - vx.toNat) % 256 ∧ (x ≠ 15 → t.readV 15 = flag)) ∧
      t.pc = s.pc + 2 ∧ ChangesOnlyRegisters s t [x, 15])

/-- 43_family8_alu.md (R132, R134): with `shiftQuirk` the operand is `V[x]`, without it `V[y]`; the lost bit goes to `V[15]`, the operand
shifted by one to `V[x]`. Where `x = 15` the flag itself is shifted: the spec's decision D15 (log 14). -/
def Obligations.ShiftsReportTheLostBit : Prop :=
  ∀ (x y : Reg) (s : State),
    (∃ t, exec (.shr x y) s = .next t ∧
      (let operand := if s.cfg.shiftQuirk then s.readV x else s.readV y
       let flag : Byte := if operand.toNat % 2 = 1 then 1 else 0
       (t.readV x).toNat = (if x = 15 then flag else operand).toNat / 2 ∧ (x ≠ 15 → t.readV 15 = flag)) ∧
      t.pc = s.pc + 2 ∧ ChangesOnlyRegisters s t [x, 15]) ∧
    (∃ t, exec (.shl x y) s = .next t ∧
      (let operand := if s.cfg.shiftQuirk then s.readV x else s.readV y
       let flag : Byte := if 128 ≤ operand.toNat then 1 else 0
       (t.readV x).toNat = (if x = 15 then flag else operand).toNat * 2 % 256 ∧ (x ≠ 15 → t.readV 15 = flag)) ∧
      t.pc = s.pc + 2 ∧ ChangesOnlyRegisters s t [x, 15])

/-- 43_family8_alu.md (R135): the results when `V[15]` is an operand of a flag-writing instruction, row by row of its table. This is
the spec's decision D15. -/
def Obligations.FlagRegisterAsAnOperand : Prop :=
  ∀ (x y : Reg) (s : State), x ≠ 15 → y ≠ 15 →
    (∃ t, exec (.addReg 15 y) s = .next t ∧ t.readV 15 = s.readV 15 + s.readV y) ∧
    (∃ t, exec (.addReg 15 15) s = .next t ∧ t.readV 15 = s.readV 15 + s.readV 15) ∧
    (∃ t, exec (.addReg x 15) s = .next t ∧ t.readV x = s.readV x + s.readV 15 ∧
      t.readV 15 = if 255 < (s.readV x).toNat + (s.readV 15).toNat then 1 else 0) ∧
    (∃ t, exec (.subReg 15 y) s = .next t ∧
      t.readV 15 = (if (s.readV y).toNat ≤ (s.readV 15).toNat then 1 else 0) - s.readV y) ∧
    (∃ t, exec (.subReg x 15) s = .next t ∧
      t.readV 15 = (if (s.readV 15).toNat ≤ (s.readV x).toNat then 1 else 0) ∧ t.readV x = s.readV x - t.readV 15) ∧
    (∃ t, exec (.subReg 15 15) s = .next t ∧ t.readV 15 = 0) ∧
    (∃ t, exec (.subnReg 15 y) s = .next t ∧
      t.readV 15 = s.readV y - (if (s.readV 15).toNat ≤ (s.readV y).toNat then 1 else 0)) ∧
    (∃ t, exec (.subnReg x 15) s = .next t ∧
      t.readV 15 = (if (s.readV x).toNat ≤ (s.readV 15).toNat then 1 else 0) ∧ t.readV x = t.readV 15 - s.readV x) ∧
    (∃ t, exec (.subnReg 15 15) s = .next t ∧ t.readV 15 = 0) ∧
    (∃ t, exec (.shr 15 y) s = .next t ∧ t.readV 15 = 0) ∧
    (∃ t, exec (.shr 15 15) s = .next t ∧ t.readV 15 = 0) ∧
    (s.cfg.shiftQuirk = false → ∃ t, exec (.shr x 15) s = .next t ∧ t.readV 15 = s.readV 15 &&& 1 ∧
      t.readV x = s.readV 15 >>> 1) ∧
    (s.cfg.shiftQuirk = true → ∃ t, exec (.shl 15 y) s = .next t ∧ t.readV 15 = (s.readV 15 >>> 7) * 2) ∧
    (∃ t, exec (.shl 15 15) s = .next t ∧ t.readV 15 = (s.readV 15 >>> 7) * 2) ∧
    (s.cfg.shiftQuirk = false → ∃ t, exec (.shl 15 y) s = .next t ∧ t.readV 15 = (s.readV y >>> 7) * 2) ∧
    (s.cfg.shiftQuirk = false → ∃ t, exec (.shl x 15) s = .next t ∧ t.readV 15 = s.readV 15 >>> 7 ∧
      t.readV x = s.readV 15 <<< 1)

/-- 10_state.md (R24): a general register changes only as a destination, and `V[15]` besides only by the six instructions that
write the flag. -/
def Obligations.InstructionsWriteOnlyTheirRegisters : Prop :=
  ∀ (i : Instr) (s t : State) (r : Reg), exec i s = .next t → isDestination i r = false →
    (r = 15 → writesFlag i = false) → t.readV r = s.readV r

/-! ## Families A, C, F without memory -/

/-- R140: `LD I, addr` puts `nnn` in `I`, the upper four bits 0; nothing else changes but `PC`. -/
def Obligations.LdILoadsTheAddress : Prop :=
  ∀ (nnn : Addr12) (s : State), ∃ t, exec (.ldI nnn) s = .next t ∧ t.i.toNat = nnn.toNat ∧ t.pc = s.pc + 2 ∧
    t = { s with i := t.i, pc := t.pc } ∧ SameMemory s t

/-- 47_familyF_misc.md: `ADD I, Vx` adds modulo 65536 and `LD F, Vx` multiplies the whole byte by 5; neither writes a flag. The wrap and
the unmasked byte are the spec's decision D19. -/
def Obligations.IndexAddAndDigitAddress : Prop :=
  ∀ (x : Reg) (s : State),
    (∃ t, exec (.addIVx x) s = .next t ∧ t.i.toNat = (s.i.toNat + (s.readV x).toNat) % 65536 ∧ t.pc = s.pc + 2 ∧
      t = { s with i := t.i, pc := t.pc } ∧ SameMemory s t) ∧
    (∃ t, exec (.ldFVx x) s = .next t ∧ t.i.toNat = (s.readV x).toNat * 5 ∧ t.pc = s.pc + 2 ∧
      t = { s with i := t.i, pc := t.pc } ∧ SameMemory s t)

/-- 44_familyA_B_C.md: `RND` writes a fresh random byte ANDed with `kk`, so no bit that `kk` lacks, and at most `kk`. The byte is a
free value (the spec's decision D17, log 5): no claim rests on what it is. -/
def Obligations.RndMasksAFreeByte : Prop :=
  ∀ (x : Reg) (kk : Byte) (s : State), ∃ t, exec (.rnd x kk) s = .next t ∧
    t.readV x = Config.randomByte s.draws &&& kk ∧ (∀ b, kk.getLsbD b = false → (t.readV x).getLsbD b = false) ∧
    (t.readV x).toNat ≤ kk.toNat ∧ t.draws = s.draws + 1 ∧ t.pc = s.pc + 2 ∧
    t = { s with v := t.v, pc := t.pc, draws := t.draws } ∧ SameRegistersBut s t [x] ∧ SameMemory s t

/-- R157, R159, R160: the moves between a register and the two timers. -/
def Obligations.TimerMoves : Prop :=
  ∀ (x : Reg) (s : State),
    (∃ t, exec (.ldVxDt x) s = .next t ∧ t.readV x = s.dt ∧ t.pc = s.pc + 2 ∧ ChangesOnlyRegisters s t [x]) ∧
    (∃ t, exec (.ldDtVx x) s = .next t ∧ t.dt = s.readV x ∧ t.pc = s.pc + 2 ∧ t = { s with dt := t.dt, pc := t.pc } ∧
      SameMemory s t) ∧
    (∃ t, exec (.ldStVx x) s = .next t ∧ t.st = s.readV x ∧ t.pc = s.pc + 2 ∧ t = { s with st := t.st, pc := t.pc } ∧
      SameMemory s t)

/-! ## Keypad -/

/-- 46_familyE_keypad.md: `SKP` skips on a pressed key, `SKNP` on one that is not; the key is the value of `V[x]`, and above 15 both
fail. The polarity is general knowledge (the spec's decision D8, log 2), the failure its decision D13. -/
def Obligations.KeySkipsFollowTheKeypad : Prop :=
  ∀ (x : Reg) (s : State),
    (∀ h : (s.readV x).toNat ≤ 15,
      (∃ t, exec (.skp x) s = .next t ∧ ChangesOnlyPc s t ∧
        t.pc = if s.keypad[(s.readV x).toNat] then s.pc + 4 else s.pc + 2) ∧
      (∃ t, exec (.sknp x) s = .next t ∧ ChangesOnlyPc s t ∧
        t.pc = if s.keypad[(s.readV x).toNat] then s.pc + 2 else s.pc + 4)) ∧
    (15 < (s.readV x).toNat →
      exec (.skp x) s = .next { s with drawFlag := false, halted := some (.keyIndexOutOfRange (s.readV x) s.pc) } ∧
      exec (.sknp x) s = .next { s with drawFlag := false, halted := some (.keyIndexOutOfRange (s.readV x) s.pc) })

/-- R158: with a key pressed `LD Vx, K` takes the least one and advances; with none it completes with nothing changed, `PC`
included. -/
def Obligations.KeyWaitTakesTheLeastPressedKey : Prop :=
  ∀ (x : Reg) (s : State),
    (∀ k : Key, s.keypad[k] = true → (∀ j : Key, j < k → s.keypad[j] = false) →
      ∃ t, exec (.ldVxK x) s = .next t ∧ (t.readV x).toNat = k.val ∧ t.pc = s.pc + 2 ∧ ChangesOnlyRegisters s t [x]) ∧
    ((∀ k : Key, s.keypad[k] = false) → exec (.ldVxK x) s = .next s)

/-! ## Draw -/

/-- 45_familyD_draw.md (R147): `DRW` toggles exactly the cells its sprite hits, sets `V[15]` to 1 exactly when one of them was true, and
sets `drawFlag`; the coordinates are those the registers held before. The range check is the spec's decision D11. -/
def Obligations.DrwTogglesTheSpriteCells : Prop :=
  ∀ (x y : Reg) (n : Nat) (s : State), n ≤ 15 → (1 ≤ n → s.i.toNat + n - 1 ≤ 4095) →
    ∃ t, exec (.drw x y n) s = .next t ∧
      (∀ (row : Fin 32) (col : Fin 64), SpriteHits s (s.readV x) (s.readV y) n row col →
        t.fb.cell row col = !s.fb.cell row col) ∧
      (∀ (row : Fin 32) (col : Fin 64), ¬ SpriteHits s (s.readV x) (s.readV y) n row col →
        t.fb.cell row col = s.fb.cell row col) ∧
      ((∃ row col, SpriteHits s (s.readV x) (s.readV y) n row col ∧ s.fb.cell row col = true) → t.readV 15 = 1) ∧
      (¬ (∃ row col, SpriteHits s (s.readV x) (s.readV y) n row col ∧ s.fb.cell row col = true) → t.readV 15 = 0) ∧
      t.drawFlag = true ∧ t.pc = s.pc + 2 ∧ SameRegistersBut s t [15] ∧
      t = { s with v := t.v, fb := t.fb, drawFlag := t.drawFlag, pc := t.pc } ∧ SameMemory s t

/-- 45_familyD_draw.md (R148 a): a sprite drawn twice from the same place leaves the screen as it was. The second draw collides when the
sprite hits some cell and the first draw found every cell it hits false. -/
def Obligations.DrawingTwiceRestoresTheScreen : Prop :=
  ∀ (x y : Reg) (n : Nat) (s t : State), n ≤ 15 → (1 ≤ n → s.i.toNat + n - 1 ≤ 4095) → x ≠ 15 → y ≠ 15 →
    exec (.drw x y n) s = .next t →
    ∃ u, exec (.drw x y n) t = .next u ∧ u.fb = s.fb ∧
      ((∃ row col, SpriteHits s (s.readV x) (s.readV y) n row col) →
        (∀ row col, SpriteHits s (s.readV x) (s.readV y) n row col → s.fb.cell row col = false) → u.readV 15 = 1)

/-- 45_familyD_draw.md (R148 c): after an invocation `drawFlag` is true exactly when it executed `CLS` or `DRW` without failing, and where
it is false the screen has not changed. -/
def Obligations.DrawFlagMarksClsAndDrw : Prop :=
  ∀ s t : State, s.halted = none → invoke s = .next t →
    (t.drawFlag = true ↔ s.pc.toNat ≤ 4094 ∧ t.halted = none ∧
      (decode s.fetchBytes = .ok .cls ∨ ∃ x y n, decode s.fetchBytes = .ok (.drw x y n))) ∧
    (t.drawFlag = false → t.fb = s.fb)

/-! ## Memory -/

/-- 47_familyF_misc.md (R163): `LD B, Vx` stores the three decimal digits at `I`, hundreds first; every other byte, every register and `I`
stay. The conditions are the spec's decisions D11 and D12; that memory is in its canonical form is kept by every step
(`FontAndMemoryFormAreKept`). -/
def Obligations.BcdStoresThreeDigits : Prop :=
  ∀ (x : Reg) (s : State), MemoryCanonical s → 80 ≤ s.i.toNat → s.i.toNat + 2 ≤ 4095 →
    ∃ t, exec (.ldBVx x) s = .next t ∧
      (t.readByte (s.dataAddr 0)).toNat = (s.readV x).toNat / 100 ∧
      (t.readByte (s.dataAddr 1)).toNat = (s.readV x).toNat / 10 % 10 ∧
      (t.readByte (s.dataAddr 2)).toNat = (s.readV x).toNat % 10 ∧
      SameMemoryOutside s t (s.dataAddr 0) 3 ∧ t.pc = s.pc + 2 ∧ t = { s with mem := t.mem, pc := t.pc }

/-- 47_familyF_misc.md (R164): `LD [I], Vx` stores `V[0]` to `V[x]` at `I` upward; every other byte, every register and `I` stay. The
conditions are the spec's decisions D11 and D12, the unchanged `I` its decision D16. -/
def Obligations.StoreRegistersWritesTheBlock : Prop :=
  ∀ (x : Reg) (s : State), MemoryCanonical s → 80 ≤ s.i.toNat → s.i.toNat + x.val ≤ 4095 →
    ∃ t, exec (.ldMemVx x) s = .next t ∧
      (∀ r : Reg, r ≤ x → t.readByte (s.dataAddr r.val) = s.readV r) ∧
      SameMemoryOutside s t (s.dataAddr 0) (x.val + 1) ∧ t.pc = s.pc + 2 ∧ t = { s with mem := t.mem, pc := t.pc }

/-- 47_familyF_misc.md (R165): `LD Vx, [I]` loads `V[0]` to `V[x]` from `I` upward; the registers above, memory and `I` stay. The condition
is the spec's decision D11, the unchanged `I` its decision D16. -/
def Obligations.LoadRegistersReadsTheBlock : Prop :=
  ∀ (x : Reg) (s : State), s.i.toNat + x.val ≤ 4095 →
    ∃ t, exec (.ldVxMem x) s = .next t ∧
      (∀ r : Reg, r ≤ x → t.readV r = s.readByte (s.dataAddr r.val)) ∧ (∀ r : Reg, x < r → t.readV r = s.readV r) ∧
      t.pc = s.pc + 2 ∧ t = { s with v := t.v, pc := t.pc } ∧ SameMemory s t

/-- 20_memory.md: an access whose highest address is above 4095 fails, with nothing read or written. This is the spec's decision
D11. -/
def Obligations.DataAccessPastTheMemoryFails : Prop :=
  ∀ (x y : Reg) (n : Nat) (s : State),
    let failed := Host.Outcome.next { s with drawFlag := false, halted := some (.memOutOfBounds s.i s.pc) }
    (1 ≤ n → 4095 < s.i.toNat + n - 1 → exec (.drw x y n) s = failed) ∧
    (4095 < s.i.toNat + 2 → exec (.ldBVx x) s = failed) ∧
    (4095 < s.i.toNat + x.val → exec (.ldMemVx x) s = failed ∧ exec (.ldVxMem x) s = failed)

/-- 20_memory.md: a store based below 80 fails, with nothing written. This is the spec's decision D12. -/
def Obligations.StoreIntoTheFontFails : Prop :=
  ∀ (x : Reg) (s : State), s.i.toNat < 80 →
    exec (.ldBVx x) s = .next { s with drawFlag := false, halted := some (.fontRegionWrite s.i s.pc) } ∧
    exec (.ldMemVx x) s = .next { s with drawFlag := false, halted := some (.fontRegionWrite s.i s.pc) }

/-- 20_memory.md: a byte that `LD [I], Vx` stores is what the very next fetch of its address reads. -/
def Obligations.StoredBytesAreFetchedAtOnce : Prop :=
  ∀ (x k k' : Reg) (s t : State), MemoryCanonical s → 80 ≤ s.i.toNat → s.i.toNat + x.val ≤ 4095 → k'.val = k.val + 1 → k' ≤ x →
    s.pc.toNat + 2 = s.i.toNat + k.val → exec (.ldMemVx x) s = .next t →
    t.fetchBytes = [s.readV k, s.readV k']

/-- 20_memory.md: memories in canonical form that read alike are the same data. -/
def Obligations.MemoriesThatReadAlikeAreEqual : Prop :=
  ∀ (font : Vector Byte 80) (m m' : Memory), Memory.wf font m → Memory.wf font m' →
    (∀ a : Nat, Memory.read font m a = Memory.read font m' a) → m = m'

/-! ## Timer Unit, Cycle Scheduler, host -/

/-- R185: one tick takes 1 from each timer down to a floor of 0 and writes nothing else. -/
def Obligations.TimerTickFloorsAtZero : Prop :=
  ∀ s : State, (timerTick s).dt.toNat = s.dt.toNat - 1 ∧ (timerTick s).st.toNat = s.st.toNat - 1 ∧
    timerTick s = { s with dt := (timerTick s).dt, st := (timerTick s).st } ∧ SameMemory s (timerTick s)

/-- R184: in each loop a period is due when the accumulator is at least the period, and then exactly one period is subtracted, from its own
accumulator only, and its own unit fires. That one pass of a loop is one step is the model's choice (log 4). -/
def Obligations.ComparatorsFireOnePeriodAtATime : Prop :=
  ∀ s : State, 1 ≤ s.cfg.cpuFrequency → s.halted = none →
    (∀ elapsed, s.phase = .timerLoop elapsed →
      (1 / 60 ≤ s.timerAccum → step s = .next (timerTick { s with timerAccum := s.timerAccum - 1 / 60 })) ∧
      (s.timerAccum < 1 / 60 → step s = .next { s with cpuAccum := s.cpuAccum + elapsed, phase := .cpuLoop })) ∧
    (s.phase = .cpuLoop →
      (1 / (s.cfg.cpuFrequency : Rat) ≤ s.cpuAccum →
        step s = invoke { s with cpuAccum := s.cpuAccum - 1 / (s.cfg.cpuFrequency : Rat) }) ∧
      (s.cpuAccum < 1 / (s.cfg.cpuFrequency : Rat) → s.pc.toNat ≤ 4095 → step s = .next { s with phase := .idle }))

/-- 60_exceptions.md (R204 a): when a call returns with `PC` above 4095 the host's check halts the machine. That `drawFlag` stays is the
model's choice (log 7). -/
def Obligations.HostCheckHaltsPastTheMemory : Prop :=
  ∀ s : State, 1 ≤ s.cfg.cpuFrequency → s.halted = none → s.phase = .cpuLoop →
    s.cpuAccum < 1 / (s.cfg.cpuFrequency : Rat) → 4095 < s.pc.toNat →
    step s = .next { s with phase := .idle, halted := some (.pcOutOfBounds s.pc) }

/-- 49_scheduler_timers.md, 60_exceptions.md: between calls the host's next move happens: an `advance` call begins, the keypad is
rewritten, a negative time is refused (D21); with no move the machine waits unchanged. That the moves stand in a list is the model's
choice (log 4). -/
def Obligations.HostMovesHappenBetweenCalls : Prop :=
  ∀ s : State, 1 ≤ s.cfg.cpuFrequency → s.halted = none → s.phase = .idle →
    (∀ elapsed rest, s.inputs = .advance elapsed :: rest →
      (0 ≤ elapsed → step s =
        .next { s with timerAccum := s.timerAccum + elapsed, phase := .timerLoop elapsed, inputs := rest }) ∧
      (elapsed < 0 → step s = .refused (.negativeElapsed elapsed))) ∧
    (∀ keys rest, s.inputs = .setKeypad keys :: rest → step s = .next { s with keypad := keys, inputs := rest }) ∧
    (s.inputs = [] → step s = .next s)

/-- 10_state.md (R36): the keypad changes only between calls, by the event source's move. This is the spec's decision D23
(log 16). -/
def Obligations.KeypadChangesOnlyBetweenCalls : Prop :=
  ∀ s t : State, step s = .next t → t.keypad ≠ s.keypad →
    s.phase = .idle ∧ ∃ keys rest, s.inputs = .setKeypad keys :: rest ∧ t.keypad = keys

/-- 10_state.md (R30): a timer changes only by a 60 Hz tick, one down, or by the instruction that loads it. -/
def Obligations.TimersChangeOnlyByTickOrLoad : Prop :=
  ∀ s t : State, step s = .next t →
    (t.dt ≠ s.dt → ((∃ elapsed, s.phase = .timerLoop elapsed) ∧ t.dt.toNat + 1 = s.dt.toNat) ∨
      (s.phase = .cpuLoop ∧ ∃ x, decode s.fetchBytes = .ok (.ldDtVx x) ∧ t.dt = s.readV x)) ∧
    (t.st ≠ s.st → ((∃ elapsed, s.phase = .timerLoop elapsed) ∧ t.st.toNat + 1 = s.st.toNat) ∨
      (s.phase = .cpuLoop ∧ ∃ x, decode s.fetchBytes = .ok (.ldStVx x) ∧ t.st = s.readV x))

/-- 10_state.md (R40, R41): no step changes the configuration. -/
def Obligations.ConfigurationNeverChanges : Prop := ∀ s t : State, step s = .next t → t.cfg = s.cfg

/-- 49_scheduler_timers.md (R190): the timer loop fires `floor(60 * timerAccum)` ticks, each timer falls by that many down to 0, and the
fraction of a period that is left stays in the accumulator. Exact time is the spec's decision D2 (log 10). -/
def Obligations.TimerLoopFiresFloorManyTicks : Prop :=
  ∀ s : State, 0 ≤ s.timerAccum →
    ∃ t, runTimerLoop (periodsIn 60 s.timerAccum) s = t ∧
      t.timerAccum = s.timerAccum - (⌊60 * s.timerAccum⌋ : Rat) / 60 ∧ 0 ≤ t.timerAccum ∧ t.timerAccum < 1 / 60 ∧
      t.dt.toNat = s.dt.toNat - ⌊60 * s.timerAccum⌋.toNat ∧ t.st.toNat = s.st.toNat - ⌊60 * s.timerAccum⌋.toNat ∧
      t = { s with timerAccum := t.timerAccum, dt := t.dt, st := t.st }

/-- 49_scheduler_timers.md (R182, R187): an `advance` call taken step by step ends, and ends in the state the whole call of R182 gives: after
a failure where it stopped, otherwise after the host's check of `PC`. That the call stops at the first failure (R187) is the
spec's reading, its decision D20 (log 8). That one pass of a loop is one step is the model's choice (log 4). -/
def Obligations.StepsOfACallReachTheWholeCall : Prop :=
  ∀ (s : State) (elapsed : Time) (rest : List HostInput), 1 ≤ s.cfg.cpuFrequency → s.halted = none → s.phase = .idle →
    s.inputs = .advance elapsed :: rest → 0 ≤ elapsed →
    ∃ u, advanceCall elapsed { s with phase := .cpuLoop, inputs := rest } = .next u ∧
      StepsTo s (if u.halted = none then endCall u else u)

/-! ## Invariants of every step -/

/-- 10_state.md (R33): bytes 0 to 79 hold the font and are never overwritten, and memory keeps its canonical form, from every state in
which they do. That a store into the font fails is the spec's decision D12. -/
def Obligations.FontAndMemoryFormAreKept : Prop :=
  ∀ s t : State, MemoryCanonical s → FontIntact s → step s = .next t → MemoryCanonical t ∧ FontIntact t

/-- 10_state.md (R23): `PC` stays at most 4350, so its 16-bit sums never wrap, and every live return address stays one an instruction can
stand at, from every state in which they are. That no instruction executes above 4094 is the spec's decision D10 (log 13). -/
def Obligations.PcAndReturnAddressesStayBounded : Prop :=
  ∀ s t : State, PcBounded s → step s = .next t → PcBounded t

/-- 49_scheduler_timers.md (R189): the accumulators stay in range, at every point of a call, from every state in which they are. It
rests on the spec's decisions D2 (exact time, log 10) and D21 (no negative time, log 16), and on the model's control point (log 4). -/
def Obligations.AccumulatorsStayInRange : Prop :=
  ∀ s t : State, ClocksInRange s → step s = .next t → ClocksInRange t

/-- 70_reset_and_hazards.md (R230), 10_state.md (R23, R33), 49_scheduler_timers.md (R189), 60_exceptions.md (R206): every state that a
constructed machine reaches, with any configuration, program and host, is safe, and its step answers a next state, the fault
of a halted machine, or the refusal of a negative time given by the host. It rests on the spec's decisions D3 and D4 (reset
values, log 9), D10 and D12 (the fetch bound and the font's protection, log 13), D20 (a halted machine has no step, log 8), D21
(a negative time is refused, log 16), and on the model's choice of what a step is (log 4). -/
def Obligations.ReachableStatesAreSafe : Prop :=
  ∀ s : State, Reachable s → Safe s ∧
    ((∃ t, step s = .next t) ∨ (∃ f, s.halted = some f ∧ step s = .fault (.halted f)) ∨
      ∃ elapsed, elapsed < 0 ∧ step s = .refused (.negativeElapsed elapsed))
end

