-- ==== Sys2Proof/Laws/Decode.lean ====
section
/-! SUPPORT. The laws of words, bytes and fields. -/

namespace Sys2Proof

/-- The word of two bytes as a number (R50). -/
theorem wordOf_toNat (hi lo : Byte) : (wordOf hi lo).toNat = hi.toNat * 256 + lo.toNat := by
  simp only [wordOf, BitVec.toNat_ofNat]
  exact Nat.mod_eq_of_lt (by omega)

/-- A word is that of its two bytes (R50). -/
theorem wordOf_highByte_lowByte (w : Word) : wordOf (highByte w) (lowByte w) = w := by
  apply BitVec.eq_of_toNat_eq
  rw [wordOf_toNat]
  simp only [highByte, lowByte, BitVec.extractLsb'_toNat, Nat.shiftRight_eq_div_pow]
  omega

/-- Decoding the two bytes of a word is decoding the word. -/
theorem decode_bytes_of_word (w : Word) : decode [highByte w, lowByte w] = decodeWord w := by
  simp [decode, wordOf_highByte_lowByte]

/-! ### Fields as numbers (R77) -/

theorem nibbleAt_toNat (w : Word) (lo : Nat) : (nibbleAt w lo).toNat = w.toNat / 2 ^ lo % 16 := by
  simp [nibbleAt, BitVec.extractLsb'_toNat, Nat.shiftRight_eq_div_pow]

theorem familyOf_toNat (w : Word) : (familyOf w).toNat = w.toNat / 4096 % 16 := nibbleAt_toNat w 12

theorem fieldX_val (w : Word) : (fieldX w).val = w.toNat / 256 % 16 := nibbleAt_toNat w 8

theorem fieldY_val (w : Word) : (fieldY w).val = w.toNat / 16 % 16 := nibbleAt_toNat w 4

theorem fieldN_toNat (w : Word) : (fieldN w).toNat = w.toNat % 16 := by
  rw [fieldN, nibbleAt_toNat]; simp

theorem fieldKK_toNat (w : Word) : (fieldKK w).toNat = w.toNat % 256 := by
  simp [fieldKK, BitVec.extractLsb'_toNat]

theorem fieldNNN_toNat (w : Word) : (fieldNNN w).toNat = w.toNat % 4096 := by
  simp [fieldNNN, BitVec.extractLsb'_toNat]

/-! ### Formats as numbers (R76) -/

theorem formatNNN_toNat {family : Nat} (hf : family < 16) (nnn : Addr12) :
    (formatNNN family nnn).toNat = family * 4096 + nnn.toNat := by
  simp only [formatNNN, BitVec.toNat_ofNat]; omega

theorem formatXKK_toNat {family : Nat} (hf : family < 16) (x : Reg) (kk : Byte) :
    (formatXKK family x kk).toNat = family * 4096 + x.val * 256 + kk.toNat := by
  simp only [formatXKK, BitVec.toNat_ofNat]; omega

theorem formatXYN_toNat {family : Nat} (hf : family < 16) (x y : Reg) {n : Nat} (hn : n < 16) :
    (formatXYN family x y n).toNat = family * 4096 + x.val * 256 + y.val * 16 + n := by
  simp only [formatXYN, BitVec.toNat_ofNat]; omega

/-! ### The fields of a format are what it was made of -/

theorem familyOf_formatNNN {family : Nat} (hf : family < 16) (nnn : Addr12) :
    (familyOf (formatNNN family nnn)).toNat = family := by
  rw [familyOf_toNat, formatNNN_toNat hf]; omega

theorem fieldNNN_formatNNN {family : Nat} (hf : family < 16) (nnn : Addr12) : fieldNNN (formatNNN family nnn) = nnn := by
  apply BitVec.eq_of_toNat_eq; rw [fieldNNN_toNat, formatNNN_toNat hf]; omega

theorem familyOf_formatXKK {family : Nat} (hf : family < 16) (x : Reg) (kk : Byte) :
    (familyOf (formatXKK family x kk)).toNat = family := by
  rw [familyOf_toNat, formatXKK_toNat hf]; omega

theorem fieldX_formatXKK {family : Nat} (hf : family < 16) (x : Reg) (kk : Byte) : fieldX (formatXKK family x kk) = x := by
  apply Fin.ext; rw [fieldX_val, formatXKK_toNat hf]; omega

theorem fieldKK_formatXKK {family : Nat} (hf : family < 16) (x : Reg) (kk : Byte) :
    fieldKK (formatXKK family x kk) = kk := by
  apply BitVec.eq_of_toNat_eq; rw [fieldKK_toNat, formatXKK_toNat hf]; omega

theorem familyOf_formatXYN {family : Nat} (hf : family < 16) (x y : Reg) {n : Nat} (hn : n < 16) :
    (familyOf (formatXYN family x y n)).toNat = family := by
  rw [familyOf_toNat, formatXYN_toNat hf x y hn]; omega

theorem fieldX_formatXYN {family : Nat} (hf : family < 16) (x y : Reg) {n : Nat} (hn : n < 16) :
    fieldX (formatXYN family x y n) = x := by
  apply Fin.ext; rw [fieldX_val, formatXYN_toNat hf x y hn]; omega

theorem fieldY_formatXYN {family : Nat} (hf : family < 16) (x y : Reg) {n : Nat} (hn : n < 16) :
    fieldY (formatXYN family x y n) = y := by
  apply Fin.ext; rw [fieldY_val, formatXYN_toNat hf x y hn]; omega

theorem fieldN_formatXYN {family : Nat} (hf : family < 16) (x y : Reg) {n : Nat} (hn : n < 16) :
    (fieldN (formatXYN family x y n)).toNat = n := by
  rw [fieldN_toNat, formatXYN_toNat hf x y hn]; omega

/-! ### The masks of the opcode map as numbers (R80) -/

/-- A word with its low `k` bits cleared, the top nibble kept (R80). -/
theorem and_mask_F000 (w : Word) : (w &&& 0xF000#16).toNat = w.toNat / 4096 * 4096 := by
  have h : w &&& 0xF000#16 = (w >>> 12) <<< 12 := by
    ext i hi
    simp only [BitVec.getElem_and, BitVec.getElem_shiftLeft]
    rcases i with _ | _ | _ | _ | _ | _ | _ | _ | _ | _ | _ | _ | _ | _ | _ | _ | i
    all_goals first | omega | simp
  rw [h]
  simp only [BitVec.toNat_shiftLeft, BitVec.toNat_ushiftRight, Nat.shiftRight_eq_div_pow, Nat.shiftLeft_eq]
  omega

/-- The low `k` bits added to a number whose low `k` bits are clear are those bits ORed in. -/
theorem or_low_bits {a b k : Nat} (ha : a % 2 ^ k = 0) (hb : b < 2 ^ k) : a ||| b = a + b := by
  have h : a = (a / 2 ^ k) <<< k := by
    rw [Nat.shiftLeft_eq]; have := Nat.div_add_mod a (2 ^ k); rw [ha] at this; linarith
  rw [h, ← Nat.shiftLeft_add_eq_or_of_lt hb]

/-- The top and the low nibble of a word (R80). -/
theorem and_mask_F00F (w : Word) : (w &&& 0xF00F#16).toNat = w.toNat / 4096 * 4096 + w.toNat % 16 := by
  have h : w &&& 0xF00F#16 = (w &&& 0xF000#16) ||| (w &&& 0x000F#16) := by rw [← BitVec.and_or_distrib_left]; rfl
  have hlow : (w &&& 0x000F#16).toNat = w.toNat % 16 := by
    rw [BitVec.toNat_and]; exact Nat.and_two_pow_sub_one_eq_mod w.toNat 4
  rw [h, BitVec.toNat_or, hlow, and_mask_F000, or_low_bits (k := 4) (by omega) (by omega)]

/-- The top nibble and the low byte of a word (R80). -/
theorem and_mask_F0FF (w : Word) : (w &&& 0xF0FF#16).toNat = w.toNat / 4096 * 4096 + w.toNat % 256 := by
  have h : w &&& 0xF0FF#16 = (w &&& 0xF000#16) ||| (w &&& 0x00FF#16) := by rw [← BitVec.and_or_distrib_left]; rfl
  have hlow : (w &&& 0x00FF#16).toNat = w.toNat % 256 := by
    rw [BitVec.toNat_and]; exact Nat.and_two_pow_sub_one_eq_mod w.toNat 8
  rw [h, BitVec.toNat_or, hlow, and_mask_F000, or_low_bits (k := 8) (by omega) (by omega)]

/-- A row selects a word exactly when the masked word is the row's value (R80). -/
theorem OpcodeRow.selects_iff (r : OpcodeRow) (w : Word) : r.selects w = true ↔ (w &&& r.mask).toNat = r.value.toNat := by
  rw [BitVec.toNat_inj]; simp [OpcodeRow.selects]

end Sys2Proof
end

