-- ==== Sys2Proof/Laws/Memory.lean ====
section
/-! SUPPORT. The laws of memory and of the framebuffer: a read after a write, what a write leaves alone, the canonical form. -/

namespace Sys2Proof.Machine

variable {font : Vector Byte 80}

theorem constructedByte_font {a : Nat} (h : a < 80) : constructedByte font a = font[a] := by simp [constructedByte, h]

theorem constructedByte_zero {a : Nat} (h : 80 ≤ a) : constructedByte font a = 0 := by
  simp [constructedByte, Nat.not_lt.mpr h]

/-! ### Cells listed in order -/

/-- Below every listed address memory reads as constructed. -/
theorem Memory.read_of_lt_all {m : Memory} {a : Nat} (h : ∀ c ∈ m, a < c.1) :
    Memory.read font m a = constructedByte font a := by
  induction m with
  | nil => rfl
  | cons c rest ih =>
    have hc : a ≠ c.1 := Nat.ne_of_lt (h c (by simp))
    simp only [Memory.read, if_neg hc]
    exact ih fun d hd => h d (by simp [hd])

theorem Memory.read_consCell {m : Memory} {a b : Nat} {v : Byte} (h : ∀ c ∈ m, a < c.1) :
    Memory.read font (Memory.consCell font a v m) b = if b = a then v else Memory.read font m b := by
  by_cases hv : v = constructedByte font a
  · by_cases hb : b = a
    · subst hb; simp [Memory.consCell, hv, Memory.read_of_lt_all h]
    · simp [Memory.consCell, hv, hb]
  · simp [Memory.consCell, hv, Memory.read]

/-- Writing keeps a bound from below on the listed addresses. -/
theorem Memory.lt_of_mem_write {m : Memory} {lo a : Nat} {v : Byte} (ha : lo < a) (h : ∀ c ∈ m, lo < c.1) :
    ∀ c ∈ Memory.write font m a v, lo < c.1 := by
  induction m with
  | nil =>
    intro c hc
    simp only [Memory.write, Memory.consCell] at hc
    split at hc
    · simp at hc
    · simp at hc; subst hc; exact ha
  | cons d rest ih =>
    intro c hc
    obtain ⟨b, u⟩ := d
    simp only [Memory.write, Memory.consCell] at hc
    have hr : ∀ c ∈ rest, lo < c.1 := fun c hc => h c (by simp [hc])
    split at hc
    · split at hc
      · exact h c hc
      · rcases List.mem_cons.mp hc with rfl | hc
        · exact ha
        · exact h c hc
    · split at hc
      · split at hc
        · exact hr c hc
        · rcases List.mem_cons.mp hc with rfl | hc
          · exact ha
          · exact hr c hc
      · rcases List.mem_cons.mp hc with rfl | hc
        · exact h (b, u) (by simp)
        · exact ih hr c hc

/-- A read after a write: the byte written at its address, the old byte elsewhere (R59). -/
theorem Memory.read_write {m : Memory} (hm : m.Pairwise (fun c d => c.1 < d.1)) (a b : Nat) (v : Byte) :
    Memory.read font (Memory.write font m a v) b = if b = a then v else Memory.read font m b := by
  induction m with
  | nil => simpa [Memory.write] using Memory.read_consCell (font := font) (m := []) (a := a) (b := b) (v := v) (by simp)
  | cons d rest ih =>
    obtain ⟨e, u⟩ := d
    obtain ⟨hd, hrest⟩ := List.pairwise_cons.mp hm
    simp only [Memory.write]
    split
    · rename_i hlt
      refine Memory.read_consCell fun c hc => ?_
      rcases List.mem_cons.mp hc with rfl | hc
      · exact hlt
      · exact Nat.lt_trans hlt (hd c hc)
    · split
      · rename_i heq
        subst heq
        rw [Memory.read_consCell hd]
        by_cases hb : b = a <;> simp [Memory.read, hb]
      · rename_i hne
        simp only [Memory.read, ih hrest]
        by_cases hb : b = e
        · have : b ≠ a := by omega
          simp [hb]
          intro h; omega
        · simp [hb]

/-- Writing inside the memory keeps the canonical form. -/
theorem Memory.wf_write {m : Memory} (hm : Memory.wf font m) {a : Nat} (ha : a < 4096) (v : Byte) :
    Memory.wf font (Memory.write font m a v) := by
  induction m with
  | nil =>
    simp only [Memory.write, Memory.consCell]
    split
    · exact hm
    · rename_i hv
      exact ⟨by simp, by simpa using ⟨ha, hv⟩⟩
  | cons d rest ih =>
    obtain ⟨e, u⟩ := d
    obtain ⟨hp, hc⟩ := hm
    obtain ⟨hd, hrest⟩ := List.pairwise_cons.mp hp
    have hwr : Memory.wf font rest := ⟨hrest, fun c h => hc c (by simp [h])⟩
    simp only [Memory.write, Memory.consCell]
    split
    · rename_i hlt
      split
      · exact ⟨hp, hc⟩
      · rename_i hv
        refine ⟨List.pairwise_cons.mpr ⟨fun c h => ?_, hp⟩, fun c h => ?_⟩
        · rcases List.mem_cons.mp h with rfl | h
          · exact hlt
          · exact Nat.lt_trans hlt (hd c h)
        · rcases List.mem_cons.mp h with rfl | h
          · exact ⟨ha, hv⟩
          · exact hc c h
    · split
      · rename_i heq
        subst heq
        split
        · exact hwr
        · rename_i hv
          refine ⟨List.pairwise_cons.mpr ⟨hd, hrest⟩, fun c h => ?_⟩
          rcases List.mem_cons.mp h with rfl | h
          · exact ⟨ha, hv⟩
          · exact hwr.2 c h
      · have hlt : e < a := by omega
        obtain ⟨ihp, ihc⟩ := ih hwr
        refine ⟨List.pairwise_cons.mpr ⟨Memory.lt_of_mem_write hlt hd, ihp⟩, fun c h => ?_⟩
        rcases List.mem_cons.mp h with rfl | h
        · exact hc _ (by simp)
        · exact ihc c h

/-- Writing a run of bytes inside the memory keeps the canonical form. -/
theorem Memory.wf_writeRun {m : Memory} (hm : Memory.wf font m) {a : Nat} {vs : List Byte} (ha : a + vs.length ≤ 4096) :
    Memory.wf font (Memory.writeRun font m a vs) := by
  induction vs generalizing m a with
  | nil => exact hm
  | cons v vs ih =>
    simp only [List.length_cons] at ha
    exact ih (Memory.wf_write hm (by omega) v) (by omega)

theorem Memory.pairwise_write {m : Memory} (hm : m.Pairwise (fun c d => c.1 < d.1)) (a : Nat) (v : Byte) :
    (Memory.write font m a v).Pairwise (fun c d => c.1 < d.1) := by
  induction m with
  | nil => simp only [Memory.write, Memory.consCell]; split <;> simp
  | cons d rest ih =>
    obtain ⟨e, u⟩ := d
    obtain ⟨hd, hrest⟩ := List.pairwise_cons.mp hm
    simp only [Memory.write, Memory.consCell]
    split
    · rename_i hlt
      split
      · exact hm
      · refine List.pairwise_cons.mpr ⟨fun c h => ?_, hm⟩
        rcases List.mem_cons.mp h with rfl | h
        · exact hlt
        · exact Nat.lt_trans hlt (hd c h)
    · split
      · rename_i heq
        subst heq
        split
        · exact hrest
        · exact List.pairwise_cons.mpr ⟨hd, hrest⟩
      · exact List.pairwise_cons.mpr ⟨Memory.lt_of_mem_write (by omega) hd, ih hrest⟩

/-- A read after a run was written: byte `k` of the run at `base + k`, the old byte outside it (R51, R59). -/
theorem Memory.read_writeRun {m : Memory} (hm : m.Pairwise (fun c d => c.1 < d.1)) (base b : Nat) (vs : List Byte) :
    Memory.read font (Memory.writeRun font m base vs) b =
      if h : base ≤ b ∧ b - base < vs.length then vs[b - base]'h.2 else Memory.read font m b := by
  induction vs generalizing m base with
  | nil => simp [Memory.writeRun]
  | cons v vs ih =>
    rw [Memory.writeRun, ih (Memory.pairwise_write hm base v), Memory.read_write hm]
    by_cases hb : b = base
    · subst hb
      simp
    · by_cases hin : base + 1 ≤ b ∧ b - (base + 1) < vs.length
      · have h2 : base ≤ b ∧ b - base < (v :: vs).length := by simp only [List.length_cons]; omega
        have h3 : b - base = (b - (base + 1)) + 1 := by omega
        rw [dif_pos hin, dif_pos h2]
        simp only [h3, List.getElem_cons_succ]
      · have h2 : ¬ (base ≤ b ∧ b - base < (v :: vs).length) := by simp only [List.length_cons]; omega
        rw [dif_neg hin, dif_neg h2, if_neg hb]

/-! ### Framebuffer -/

theorem blankFramebuffer_cell (row : Fin 32) (col : Fin 64) : blankFramebuffer.cell row col = false := by
  simp [Framebuffer.cell, blankFramebuffer]

/-- Toggling a cell changes that cell and no other (R147). -/
theorem Framebuffer.cell_toggle (fb : Framebuffer) (row r : Fin 32) (col c : Fin 64) :
    (fb.toggle row col).cell r c = if r = row ∧ c = col then !fb.cell row col else fb.cell r c := by
  by_cases hr : r = row
  · subst hr
    by_cases hc : c = col
    · subst hc; simp [Framebuffer.cell, Framebuffer.toggle]
    · have : (col : Nat) ≠ c := fun h => hc (Fin.ext h.symm)
      simp [Framebuffer.cell, Framebuffer.toggle, hc, Vector.getElem_set_ne, this]
  · have : (row : Nat) ≠ r := fun h => hr (Fin.ext h.symm)
    simp [Framebuffer.cell, Framebuffer.toggle, hr, Vector.getElem_set_ne, this]

end Sys2Proof.Machine
end

