-- ==== Sys2Proof/Laws/State.lean ====
section
/-! SUPPORT. What each named update leaves and changes, field by field, so that no proof unfolds a record update. -/

namespace Sys2Proof.Machine

/-! ### writeV -/

@[simp] theorem State.writeV_v (s : State) (r : Reg) (b : Byte) : (s.writeV r b).v = s.v.set r b := rfl
@[simp] theorem State.writeV_i (s : State) (r : Reg) (b : Byte) : (s.writeV r b).i = s.i := rfl
@[simp] theorem State.writeV_pc (s : State) (r : Reg) (b : Byte) : (s.writeV r b).pc = s.pc := rfl
@[simp] theorem State.writeV_sp (s : State) (r : Reg) (b : Byte) : (s.writeV r b).sp = s.sp := rfl
@[simp] theorem State.writeV_stack (s : State) (r : Reg) (b : Byte) : (s.writeV r b).stack = s.stack := rfl
@[simp] theorem State.writeV_dt (s : State) (r : Reg) (b : Byte) : (s.writeV r b).dt = s.dt := rfl
@[simp] theorem State.writeV_st (s : State) (r : Reg) (b : Byte) : (s.writeV r b).st = s.st := rfl
@[simp] theorem State.writeV_mem (s : State) (r : Reg) (b : Byte) : (s.writeV r b).mem = s.mem := rfl
@[simp] theorem State.writeV_fb (s : State) (r : Reg) (b : Byte) : (s.writeV r b).fb = s.fb := rfl
@[simp] theorem State.writeV_keypad (s : State) (r : Reg) (b : Byte) : (s.writeV r b).keypad = s.keypad := rfl
@[simp] theorem State.writeV_drawFlag (s : State) (r : Reg) (b : Byte) : (s.writeV r b).drawFlag = s.drawFlag := rfl
@[simp] theorem State.writeV_cfg (s : State) (r : Reg) (b : Byte) : (s.writeV r b).cfg = s.cfg := rfl
@[simp] theorem State.writeV_timerAccum (s : State) (r : Reg) (b : Byte) : (s.writeV r b).timerAccum = s.timerAccum := rfl
@[simp] theorem State.writeV_cpuAccum (s : State) (r : Reg) (b : Byte) : (s.writeV r b).cpuAccum = s.cpuAccum := rfl
@[simp] theorem State.writeV_halted (s : State) (r : Reg) (b : Byte) : (s.writeV r b).halted = s.halted := rfl
@[simp] theorem State.writeV_phase (s : State) (r : Reg) (b : Byte) : (s.writeV r b).phase = s.phase := rfl
@[simp] theorem State.writeV_inputs (s : State) (r : Reg) (b : Byte) : (s.writeV r b).inputs = s.inputs := rfl
@[simp] theorem State.writeV_draws (s : State) (r : Reg) (b : Byte) : (s.writeV r b).draws = s.draws := rfl

/-! ### writeFlag -/

@[simp] theorem State.writeFlag_v (s : State) (b : Bool) : (s.writeFlag b).v = s.v.set vf (flagByte b) := rfl
@[simp] theorem State.writeFlag_i (s : State) (b : Bool) : (s.writeFlag b).i = s.i := rfl
@[simp] theorem State.writeFlag_pc (s : State) (b : Bool) : (s.writeFlag b).pc = s.pc := rfl
@[simp] theorem State.writeFlag_sp (s : State) (b : Bool) : (s.writeFlag b).sp = s.sp := rfl
@[simp] theorem State.writeFlag_stack (s : State) (b : Bool) : (s.writeFlag b).stack = s.stack := rfl
@[simp] theorem State.writeFlag_dt (s : State) (b : Bool) : (s.writeFlag b).dt = s.dt := rfl
@[simp] theorem State.writeFlag_st (s : State) (b : Bool) : (s.writeFlag b).st = s.st := rfl
@[simp] theorem State.writeFlag_mem (s : State) (b : Bool) : (s.writeFlag b).mem = s.mem := rfl
@[simp] theorem State.writeFlag_fb (s : State) (b : Bool) : (s.writeFlag b).fb = s.fb := rfl
@[simp] theorem State.writeFlag_keypad (s : State) (b : Bool) : (s.writeFlag b).keypad = s.keypad := rfl
@[simp] theorem State.writeFlag_drawFlag (s : State) (b : Bool) : (s.writeFlag b).drawFlag = s.drawFlag := rfl
@[simp] theorem State.writeFlag_cfg (s : State) (b : Bool) : (s.writeFlag b).cfg = s.cfg := rfl
@[simp] theorem State.writeFlag_timerAccum (s : State) (b : Bool) : (s.writeFlag b).timerAccum = s.timerAccum := rfl
@[simp] theorem State.writeFlag_cpuAccum (s : State) (b : Bool) : (s.writeFlag b).cpuAccum = s.cpuAccum := rfl
@[simp] theorem State.writeFlag_halted (s : State) (b : Bool) : (s.writeFlag b).halted = s.halted := rfl
@[simp] theorem State.writeFlag_phase (s : State) (b : Bool) : (s.writeFlag b).phase = s.phase := rfl
@[simp] theorem State.writeFlag_inputs (s : State) (b : Bool) : (s.writeFlag b).inputs = s.inputs := rfl
@[simp] theorem State.writeFlag_draws (s : State) (b : Bool) : (s.writeFlag b).draws = s.draws := rfl

/-! ### advance -/

@[simp] theorem State.advance_v (s : State) : (s.advance).v = s.v := rfl
@[simp] theorem State.advance_i (s : State) : (s.advance).i = s.i := rfl
@[simp] theorem State.advance_pc (s : State) : (s.advance).pc = s.pc + 2 := rfl
@[simp] theorem State.advance_sp (s : State) : (s.advance).sp = s.sp := rfl
@[simp] theorem State.advance_stack (s : State) : (s.advance).stack = s.stack := rfl
@[simp] theorem State.advance_dt (s : State) : (s.advance).dt = s.dt := rfl
@[simp] theorem State.advance_st (s : State) : (s.advance).st = s.st := rfl
@[simp] theorem State.advance_mem (s : State) : (s.advance).mem = s.mem := rfl
@[simp] theorem State.advance_fb (s : State) : (s.advance).fb = s.fb := rfl
@[simp] theorem State.advance_keypad (s : State) : (s.advance).keypad = s.keypad := rfl
@[simp] theorem State.advance_drawFlag (s : State) : (s.advance).drawFlag = s.drawFlag := rfl
@[simp] theorem State.advance_cfg (s : State) : (s.advance).cfg = s.cfg := rfl
@[simp] theorem State.advance_timerAccum (s : State) : (s.advance).timerAccum = s.timerAccum := rfl
@[simp] theorem State.advance_cpuAccum (s : State) : (s.advance).cpuAccum = s.cpuAccum := rfl
@[simp] theorem State.advance_halted (s : State) : (s.advance).halted = s.halted := rfl
@[simp] theorem State.advance_phase (s : State) : (s.advance).phase = s.phase := rfl
@[simp] theorem State.advance_inputs (s : State) : (s.advance).inputs = s.inputs := rfl
@[simp] theorem State.advance_draws (s : State) : (s.advance).draws = s.draws := rfl

/-! ### skipIf -/

@[simp] theorem State.skipIf_v (s : State) (c : Bool) : (s.skipIf c).v = s.v := rfl
@[simp] theorem State.skipIf_i (s : State) (c : Bool) : (s.skipIf c).i = s.i := rfl
@[simp] theorem State.skipIf_pc (s : State) (c : Bool) : (s.skipIf c).pc = if c then s.pc + 4 else s.pc + 2 := rfl
@[simp] theorem State.skipIf_sp (s : State) (c : Bool) : (s.skipIf c).sp = s.sp := rfl
@[simp] theorem State.skipIf_stack (s : State) (c : Bool) : (s.skipIf c).stack = s.stack := rfl
@[simp] theorem State.skipIf_dt (s : State) (c : Bool) : (s.skipIf c).dt = s.dt := rfl
@[simp] theorem State.skipIf_st (s : State) (c : Bool) : (s.skipIf c).st = s.st := rfl
@[simp] theorem State.skipIf_mem (s : State) (c : Bool) : (s.skipIf c).mem = s.mem := rfl
@[simp] theorem State.skipIf_fb (s : State) (c : Bool) : (s.skipIf c).fb = s.fb := rfl
@[simp] theorem State.skipIf_keypad (s : State) (c : Bool) : (s.skipIf c).keypad = s.keypad := rfl
@[simp] theorem State.skipIf_drawFlag (s : State) (c : Bool) : (s.skipIf c).drawFlag = s.drawFlag := rfl
@[simp] theorem State.skipIf_cfg (s : State) (c : Bool) : (s.skipIf c).cfg = s.cfg := rfl
@[simp] theorem State.skipIf_timerAccum (s : State) (c : Bool) : (s.skipIf c).timerAccum = s.timerAccum := rfl
@[simp] theorem State.skipIf_cpuAccum (s : State) (c : Bool) : (s.skipIf c).cpuAccum = s.cpuAccum := rfl
@[simp] theorem State.skipIf_halted (s : State) (c : Bool) : (s.skipIf c).halted = s.halted := rfl
@[simp] theorem State.skipIf_phase (s : State) (c : Bool) : (s.skipIf c).phase = s.phase := rfl
@[simp] theorem State.skipIf_inputs (s : State) (c : Bool) : (s.skipIf c).inputs = s.inputs := rfl
@[simp] theorem State.skipIf_draws (s : State) (c : Bool) : (s.skipIf c).draws = s.draws := rfl

/-! ### jump -/

@[simp] theorem State.jump_v (s : State) (a : Word) : (s.jump a).v = s.v := rfl
@[simp] theorem State.jump_i (s : State) (a : Word) : (s.jump a).i = s.i := rfl
@[simp] theorem State.jump_pc (s : State) (a : Word) : (s.jump a).pc = a := rfl
@[simp] theorem State.jump_sp (s : State) (a : Word) : (s.jump a).sp = s.sp := rfl
@[simp] theorem State.jump_stack (s : State) (a : Word) : (s.jump a).stack = s.stack := rfl
@[simp] theorem State.jump_dt (s : State) (a : Word) : (s.jump a).dt = s.dt := rfl
@[simp] theorem State.jump_st (s : State) (a : Word) : (s.jump a).st = s.st := rfl
@[simp] theorem State.jump_mem (s : State) (a : Word) : (s.jump a).mem = s.mem := rfl
@[simp] theorem State.jump_fb (s : State) (a : Word) : (s.jump a).fb = s.fb := rfl
@[simp] theorem State.jump_keypad (s : State) (a : Word) : (s.jump a).keypad = s.keypad := rfl
@[simp] theorem State.jump_drawFlag (s : State) (a : Word) : (s.jump a).drawFlag = s.drawFlag := rfl
@[simp] theorem State.jump_cfg (s : State) (a : Word) : (s.jump a).cfg = s.cfg := rfl
@[simp] theorem State.jump_timerAccum (s : State) (a : Word) : (s.jump a).timerAccum = s.timerAccum := rfl
@[simp] theorem State.jump_cpuAccum (s : State) (a : Word) : (s.jump a).cpuAccum = s.cpuAccum := rfl
@[simp] theorem State.jump_halted (s : State) (a : Word) : (s.jump a).halted = s.halted := rfl
@[simp] theorem State.jump_phase (s : State) (a : Word) : (s.jump a).phase = s.phase := rfl
@[simp] theorem State.jump_inputs (s : State) (a : Word) : (s.jump a).inputs = s.inputs := rfl
@[simp] theorem State.jump_draws (s : State) (a : Word) : (s.jump a).draws = s.draws := rfl

/-! ### writeByte -/

@[simp] theorem State.writeByte_v (s : State) (a : Nat) (b : Byte) : (s.writeByte a b).v = s.v := rfl
@[simp] theorem State.writeByte_i (s : State) (a : Nat) (b : Byte) : (s.writeByte a b).i = s.i := rfl
@[simp] theorem State.writeByte_pc (s : State) (a : Nat) (b : Byte) : (s.writeByte a b).pc = s.pc := rfl
@[simp] theorem State.writeByte_sp (s : State) (a : Nat) (b : Byte) : (s.writeByte a b).sp = s.sp := rfl
@[simp] theorem State.writeByte_stack (s : State) (a : Nat) (b : Byte) : (s.writeByte a b).stack = s.stack := rfl
@[simp] theorem State.writeByte_dt (s : State) (a : Nat) (b : Byte) : (s.writeByte a b).dt = s.dt := rfl
@[simp] theorem State.writeByte_st (s : State) (a : Nat) (b : Byte) : (s.writeByte a b).st = s.st := rfl
@[simp] theorem State.writeByte_mem (s : State) (a : Nat) (b : Byte) : (s.writeByte a b).mem = Memory.write s.cfg.font s.mem a b := rfl
@[simp] theorem State.writeByte_fb (s : State) (a : Nat) (b : Byte) : (s.writeByte a b).fb = s.fb := rfl
@[simp] theorem State.writeByte_keypad (s : State) (a : Nat) (b : Byte) : (s.writeByte a b).keypad = s.keypad := rfl
@[simp] theorem State.writeByte_drawFlag (s : State) (a : Nat) (b : Byte) : (s.writeByte a b).drawFlag = s.drawFlag := rfl
@[simp] theorem State.writeByte_cfg (s : State) (a : Nat) (b : Byte) : (s.writeByte a b).cfg = s.cfg := rfl
@[simp] theorem State.writeByte_timerAccum (s : State) (a : Nat) (b : Byte) : (s.writeByte a b).timerAccum = s.timerAccum := rfl
@[simp] theorem State.writeByte_cpuAccum (s : State) (a : Nat) (b : Byte) : (s.writeByte a b).cpuAccum = s.cpuAccum := rfl
@[simp] theorem State.writeByte_halted (s : State) (a : Nat) (b : Byte) : (s.writeByte a b).halted = s.halted := rfl
@[simp] theorem State.writeByte_phase (s : State) (a : Nat) (b : Byte) : (s.writeByte a b).phase = s.phase := rfl
@[simp] theorem State.writeByte_inputs (s : State) (a : Nat) (b : Byte) : (s.writeByte a b).inputs = s.inputs := rfl
@[simp] theorem State.writeByte_draws (s : State) (a : Nat) (b : Byte) : (s.writeByte a b).draws = s.draws := rfl

/-! ### writeBytes -/

@[simp] theorem State.writeBytes_v (s : State) (a : Nat) (bs : List Byte) : (s.writeBytes a bs).v = s.v := rfl
@[simp] theorem State.writeBytes_i (s : State) (a : Nat) (bs : List Byte) : (s.writeBytes a bs).i = s.i := rfl
@[simp] theorem State.writeBytes_pc (s : State) (a : Nat) (bs : List Byte) : (s.writeBytes a bs).pc = s.pc := rfl
@[simp] theorem State.writeBytes_sp (s : State) (a : Nat) (bs : List Byte) : (s.writeBytes a bs).sp = s.sp := rfl
@[simp] theorem State.writeBytes_stack (s : State) (a : Nat) (bs : List Byte) : (s.writeBytes a bs).stack = s.stack := rfl
@[simp] theorem State.writeBytes_dt (s : State) (a : Nat) (bs : List Byte) : (s.writeBytes a bs).dt = s.dt := rfl
@[simp] theorem State.writeBytes_st (s : State) (a : Nat) (bs : List Byte) : (s.writeBytes a bs).st = s.st := rfl
@[simp] theorem State.writeBytes_mem (s : State) (a : Nat) (bs : List Byte) : (s.writeBytes a bs).mem = Memory.writeRun s.cfg.font s.mem a bs := rfl
@[simp] theorem State.writeBytes_fb (s : State) (a : Nat) (bs : List Byte) : (s.writeBytes a bs).fb = s.fb := rfl
@[simp] theorem State.writeBytes_keypad (s : State) (a : Nat) (bs : List Byte) : (s.writeBytes a bs).keypad = s.keypad := rfl
@[simp] theorem State.writeBytes_drawFlag (s : State) (a : Nat) (bs : List Byte) : (s.writeBytes a bs).drawFlag = s.drawFlag := rfl
@[simp] theorem State.writeBytes_cfg (s : State) (a : Nat) (bs : List Byte) : (s.writeBytes a bs).cfg = s.cfg := rfl
@[simp] theorem State.writeBytes_timerAccum (s : State) (a : Nat) (bs : List Byte) : (s.writeBytes a bs).timerAccum = s.timerAccum := rfl
@[simp] theorem State.writeBytes_cpuAccum (s : State) (a : Nat) (bs : List Byte) : (s.writeBytes a bs).cpuAccum = s.cpuAccum := rfl
@[simp] theorem State.writeBytes_halted (s : State) (a : Nat) (bs : List Byte) : (s.writeBytes a bs).halted = s.halted := rfl
@[simp] theorem State.writeBytes_phase (s : State) (a : Nat) (bs : List Byte) : (s.writeBytes a bs).phase = s.phase := rfl
@[simp] theorem State.writeBytes_inputs (s : State) (a : Nat) (bs : List Byte) : (s.writeBytes a bs).inputs = s.inputs := rfl
@[simp] theorem State.writeBytes_draws (s : State) (a : Nat) (bs : List Byte) : (s.writeBytes a bs).draws = s.draws := rfl

/-! ### fail -/

@[simp] theorem State.fail_v (s : State) (f : Failure) : (s.fail f).v = s.v := rfl
@[simp] theorem State.fail_i (s : State) (f : Failure) : (s.fail f).i = s.i := rfl
@[simp] theorem State.fail_pc (s : State) (f : Failure) : (s.fail f).pc = s.pc := rfl
@[simp] theorem State.fail_sp (s : State) (f : Failure) : (s.fail f).sp = s.sp := rfl
@[simp] theorem State.fail_stack (s : State) (f : Failure) : (s.fail f).stack = s.stack := rfl
@[simp] theorem State.fail_dt (s : State) (f : Failure) : (s.fail f).dt = s.dt := rfl
@[simp] theorem State.fail_st (s : State) (f : Failure) : (s.fail f).st = s.st := rfl
@[simp] theorem State.fail_mem (s : State) (f : Failure) : (s.fail f).mem = s.mem := rfl
@[simp] theorem State.fail_fb (s : State) (f : Failure) : (s.fail f).fb = s.fb := rfl
@[simp] theorem State.fail_keypad (s : State) (f : Failure) : (s.fail f).keypad = s.keypad := rfl
@[simp] theorem State.fail_drawFlag (s : State) (f : Failure) : (s.fail f).drawFlag = false := rfl
@[simp] theorem State.fail_cfg (s : State) (f : Failure) : (s.fail f).cfg = s.cfg := rfl
@[simp] theorem State.fail_timerAccum (s : State) (f : Failure) : (s.fail f).timerAccum = s.timerAccum := rfl
@[simp] theorem State.fail_cpuAccum (s : State) (f : Failure) : (s.fail f).cpuAccum = s.cpuAccum := rfl
@[simp] theorem State.fail_halted (s : State) (f : Failure) : (s.fail f).halted = some f := rfl
@[simp] theorem State.fail_phase (s : State) (f : Failure) : (s.fail f).phase = s.phase := rfl
@[simp] theorem State.fail_inputs (s : State) (f : Failure) : (s.fail f).inputs = s.inputs := rfl
@[simp] theorem State.fail_draws (s : State) (f : Failure) : (s.fail f).draws = s.draws := rfl

/-! ### loadRegistersUpTo -/

@[simp] theorem State.loadRegistersUpTo_i (s : State) (x : Reg) : (s.loadRegistersUpTo x).i = s.i := by
  simp only [State.loadRegistersUpTo]
@[simp] theorem State.loadRegistersUpTo_pc (s : State) (x : Reg) : (s.loadRegistersUpTo x).pc = s.pc := by
  simp only [State.loadRegistersUpTo]
@[simp] theorem State.loadRegistersUpTo_sp (s : State) (x : Reg) : (s.loadRegistersUpTo x).sp = s.sp := by
  simp only [State.loadRegistersUpTo]
@[simp] theorem State.loadRegistersUpTo_stack (s : State) (x : Reg) : (s.loadRegistersUpTo x).stack = s.stack := by
  simp only [State.loadRegistersUpTo]
@[simp] theorem State.loadRegistersUpTo_dt (s : State) (x : Reg) : (s.loadRegistersUpTo x).dt = s.dt := by
  simp only [State.loadRegistersUpTo]
@[simp] theorem State.loadRegistersUpTo_st (s : State) (x : Reg) : (s.loadRegistersUpTo x).st = s.st := by
  simp only [State.loadRegistersUpTo]
@[simp] theorem State.loadRegistersUpTo_mem (s : State) (x : Reg) : (s.loadRegistersUpTo x).mem = s.mem := by
  simp only [State.loadRegistersUpTo]
@[simp] theorem State.loadRegistersUpTo_fb (s : State) (x : Reg) : (s.loadRegistersUpTo x).fb = s.fb := by
  simp only [State.loadRegistersUpTo]
@[simp] theorem State.loadRegistersUpTo_keypad (s : State) (x : Reg) : (s.loadRegistersUpTo x).keypad = s.keypad := by
  simp only [State.loadRegistersUpTo]
@[simp] theorem State.loadRegistersUpTo_drawFlag (s : State) (x : Reg) : (s.loadRegistersUpTo x).drawFlag = s.drawFlag := by
  simp only [State.loadRegistersUpTo]
@[simp] theorem State.loadRegistersUpTo_cfg (s : State) (x : Reg) : (s.loadRegistersUpTo x).cfg = s.cfg := by
  simp only [State.loadRegistersUpTo]
@[simp] theorem State.loadRegistersUpTo_timerAccum (s : State) (x : Reg) : (s.loadRegistersUpTo x).timerAccum = s.timerAccum := by
  simp only [State.loadRegistersUpTo]
@[simp] theorem State.loadRegistersUpTo_cpuAccum (s : State) (x : Reg) : (s.loadRegistersUpTo x).cpuAccum = s.cpuAccum := by
  simp only [State.loadRegistersUpTo]
@[simp] theorem State.loadRegistersUpTo_halted (s : State) (x : Reg) : (s.loadRegistersUpTo x).halted = s.halted := by
  simp only [State.loadRegistersUpTo]
@[simp] theorem State.loadRegistersUpTo_phase (s : State) (x : Reg) : (s.loadRegistersUpTo x).phase = s.phase := by
  simp only [State.loadRegistersUpTo]
@[simp] theorem State.loadRegistersUpTo_inputs (s : State) (x : Reg) : (s.loadRegistersUpTo x).inputs = s.inputs := by
  simp only [State.loadRegistersUpTo]
@[simp] theorem State.loadRegistersUpTo_draws (s : State) (x : Reg) : (s.loadRegistersUpTo x).draws = s.draws := by
  simp only [State.loadRegistersUpTo]

/-! ### timerTick -/

@[simp] theorem timerTick_v (s : State) : (timerTick s).v = s.v := rfl
@[simp] theorem timerTick_i (s : State) : (timerTick s).i = s.i := rfl
@[simp] theorem timerTick_pc (s : State) : (timerTick s).pc = s.pc := rfl
@[simp] theorem timerTick_sp (s : State) : (timerTick s).sp = s.sp := rfl
@[simp] theorem timerTick_stack (s : State) : (timerTick s).stack = s.stack := rfl
@[simp] theorem timerTick_dt (s : State) : (timerTick s).dt = countDown s.dt := rfl
@[simp] theorem timerTick_st (s : State) : (timerTick s).st = countDown s.st := rfl
@[simp] theorem timerTick_mem (s : State) : (timerTick s).mem = s.mem := rfl
@[simp] theorem timerTick_fb (s : State) : (timerTick s).fb = s.fb := rfl
@[simp] theorem timerTick_keypad (s : State) : (timerTick s).keypad = s.keypad := rfl
@[simp] theorem timerTick_drawFlag (s : State) : (timerTick s).drawFlag = s.drawFlag := rfl
@[simp] theorem timerTick_cfg (s : State) : (timerTick s).cfg = s.cfg := rfl
@[simp] theorem timerTick_timerAccum (s : State) : (timerTick s).timerAccum = s.timerAccum := rfl
@[simp] theorem timerTick_cpuAccum (s : State) : (timerTick s).cpuAccum = s.cpuAccum := rfl
@[simp] theorem timerTick_halted (s : State) : (timerTick s).halted = s.halted := rfl
@[simp] theorem timerTick_phase (s : State) : (timerTick s).phase = s.phase := rfl
@[simp] theorem timerTick_inputs (s : State) : (timerTick s).inputs = s.inputs := rfl
@[simp] theorem timerTick_draws (s : State) : (timerTick s).draws = s.draws := rfl

/-! ### endCall -/

@[simp] theorem endCall_v (s : State) : (endCall s).v = s.v := rfl
@[simp] theorem endCall_i (s : State) : (endCall s).i = s.i := rfl
@[simp] theorem endCall_pc (s : State) : (endCall s).pc = s.pc := rfl
@[simp] theorem endCall_sp (s : State) : (endCall s).sp = s.sp := rfl
@[simp] theorem endCall_stack (s : State) : (endCall s).stack = s.stack := rfl
@[simp] theorem endCall_dt (s : State) : (endCall s).dt = s.dt := rfl
@[simp] theorem endCall_st (s : State) : (endCall s).st = s.st := rfl
@[simp] theorem endCall_mem (s : State) : (endCall s).mem = s.mem := rfl
@[simp] theorem endCall_fb (s : State) : (endCall s).fb = s.fb := rfl
@[simp] theorem endCall_keypad (s : State) : (endCall s).keypad = s.keypad := rfl
@[simp] theorem endCall_drawFlag (s : State) : (endCall s).drawFlag = s.drawFlag := rfl
@[simp] theorem endCall_cfg (s : State) : (endCall s).cfg = s.cfg := rfl
@[simp] theorem endCall_timerAccum (s : State) : (endCall s).timerAccum = s.timerAccum := rfl
@[simp] theorem endCall_cpuAccum (s : State) : (endCall s).cpuAccum = s.cpuAccum := rfl
@[simp] theorem endCall_halted (s : State) : (endCall s).halted = if 4095 < s.pc.toNat then some (.pcOutOfBounds s.pc) else s.halted := rfl
@[simp] theorem endCall_phase (s : State) : (endCall s).phase = .idle := rfl
@[simp] theorem endCall_inputs (s : State) : (endCall s).inputs = s.inputs := rfl
@[simp] theorem endCall_draws (s : State) : (endCall s).draws = s.draws := rfl

end Sys2Proof.Machine
end

