-- ==== Sys2Proof/Laws/Ops.lean ====
section
/-! SUPPORT. One lemma for each shared operation that says once what it does, for the provers to cite. -/

namespace Sys2Proof.Machine

/-! ### Registers -/

@[simp] theorem State.readV_writeV_self (s : State) (r : Reg) (b : Byte) : (s.writeV r b).readV r = b := by
  simp [State.readV, State.writeV]

theorem State.readV_writeV_ne (s : State) {r r' : Reg} (b : Byte) (h : r' ≠ r) : (s.writeV r b).readV r' = s.readV r' := by
  have : (r : Nat) ≠ r' := fun e => h (Fin.ext e.symm)
  simp [State.readV, State.writeV, Vector.getElem_set_ne, this]

/-- A read after a write of a register (R20). -/
theorem State.readV_writeV (s : State) (r r' : Reg) (b : Byte) :
    (s.writeV r b).readV r' = if r' = r then b else s.readV r' := by
  by_cases h : r' = r
  · simp [h]
  · simp [h, State.readV_writeV_ne]

theorem State.readV_writeFlag (s : State) (b : Bool) (r : Reg) :
    (s.writeFlag b).readV r = if r = vf then flagByte b else s.readV r := State.readV_writeV s vf r (flagByte b)

@[simp] theorem State.readV_advance (s : State) (r : Reg) : s.advance.readV r = s.readV r := rfl
@[simp] theorem State.readV_skipIf (s : State) (c : Bool) (r : Reg) : (s.skipIf c).readV r = s.readV r := rfl
@[simp] theorem State.readV_jump (s : State) (a : Word) (r : Reg) : (s.jump a).readV r = s.readV r := rfl
@[simp] theorem State.readV_writeBytes (s : State) (a : Nat) (bs : List Byte) (r : Reg) :
    (s.writeBytes a bs).readV r = s.readV r := rfl

/-- What a block load leaves in each register (R165). -/
theorem State.readV_loadRegistersUpTo (s : State) (x r : Reg) :
    (s.loadRegistersUpTo x).readV r = if r ≤ x then s.readByte (s.dataAddr r.val) else s.readV r := by
  simp [State.readV, State.loadRegistersUpTo]

theorem State.readV_of_v_eq {s t : State} (h : t.v = s.v) (r : Reg) : t.readV r = s.readV r := by
  simp [State.readV, h]

/-! ### Memory of a state -/

/-- Memory and font decide every read. -/
theorem sameMemory_of_eq {s t : State} (hm : t.mem = s.mem) (hc : t.cfg = s.cfg) : SameMemory s t := fun a => by
  simp [State.readByte, hm, hc]

/-- A read after a run of bytes was written, in a state whose cells stand in order (R51, R59). -/
theorem State.readByte_writeBytes {s : State} (hs : s.mem.Pairwise (fun c d => c.1 < d.1)) (base a : Nat) (bs : List Byte) :
    (s.writeBytes base bs).readByte a =
      if h : base ≤ a ∧ a - base < bs.length then bs[a - base]'h.2 else s.readByte a :=
  Memory.read_writeRun hs base a bs

/-- A write inside the memory keeps the canonical form. -/
theorem memoryCanonical_writeBytes {s : State} (hs : MemoryCanonical s) {base : Nat} {bs : List Byte}
    (hb : base + bs.length ≤ 4096) : MemoryCanonical (s.writeBytes base bs) := Memory.wf_writeRun hs hb

/-- A write from 80 up keeps the font. -/
theorem fontIntact_writeBytes {s : State} (hm : MemoryCanonical s) (hf : FontIntact s) {base : Nat} {bs : List Byte}
    (hb : 80 ≤ base) : FontIntact (s.writeBytes base bs) := fun a ha => by
  have : ¬ (base ≤ a ∧ a - base < bs.length) := by omega
  rw [State.readByte_writeBytes hm.1, dif_neg this]
  exact hf a ha

/-! ### Checks -/

/-- An access check passes exactly when the access has no byte or its last is inside the memory (R56). -/
theorem State.accessFailure_eq_none {s : State} {count : Nat} :
    s.accessFailure count = none ↔ (1 ≤ count → s.i.toNat + count - 1 ≤ 4095) := by
  by_cases h : 1 ≤ count ∧ 4095 < s.i.toNat + (count - 1)
  · simp [State.accessFailure, State.dataAddr, h]; omega
  · simp [State.accessFailure, State.dataAddr, h]; omega

/-- An access check fails with `MemOutOfBounds` only (R56). -/
theorem State.accessFailure_eq_some {s : State} {count : Nat} (h1 : 1 ≤ count) (h : 4095 < s.i.toNat + count - 1) :
    s.accessFailure count = some (.memOutOfBounds s.i s.pc) := by
  have : 4095 < s.i.toNat + (count - 1) := by omega
  simp [State.accessFailure, State.dataAddr, h1, this]

/-- A store check passes exactly when the access check does and `I` is at least 80 (R57). -/
theorem State.storeFailure_eq_none {s : State} {count : Nat} :
    s.storeFailure count = none ↔ (1 ≤ count → s.i.toNat + count - 1 ≤ 4095) ∧ 80 ≤ s.i.toNat := by
  rw [← State.accessFailure_eq_none, State.storeFailure]
  cases s.accessFailure count <;> simp

/-! ### The call stack -/

/-- A push succeeds exactly with fewer than 16 frames (R103). -/
theorem State.pushPc?_eq (s : State) :
    (∃ h : s.sp.val < 16, s.pushPc? = some { s with stack := s.stack.set s.sp.val s.pc, sp := ⟨s.sp.val + 1, by omega⟩ }) ∨
      (s.sp.val = 16 ∧ s.pushPc? = none) := by
  by_cases h : s.sp.val < 16
  · exact .inl ⟨h, by simp [State.pushPc?, h]⟩
  · exact .inr ⟨by omega, by simp [State.pushPc?, h]⟩

/-- A pop succeeds exactly with at least one frame (R101). -/
theorem State.popPc?_eq (s : State) :
    (∃ h : 0 < s.sp.val,
      s.popPc? = some { s with sp := ⟨s.sp.val - 1, by omega⟩, pc := s.stack[s.sp.val - 1]'(by omega) }) ∨
      (s.sp.val = 0 ∧ s.popPc? = none) := by
  by_cases h : 0 < s.sp.val
  · exact .inl ⟨h, by simp [State.popPc?, h]⟩
  · exact .inr ⟨by omega, by simp [State.popPc?, h]⟩

/-! ### Keys -/

/-- The value of `V[x]` names a key exactly when it is at most 15 (R155). -/
theorem State.keyOf?_eq (s : State) (x : Reg) :
    (∃ h : (s.readV x).toNat < 16, s.keyOf? x = some ⟨(s.readV x).toNat, h⟩) ∨
      (15 < (s.readV x).toNat ∧ s.keyOf? x = none) := by
  by_cases h : (s.readV x).toNat < 16
  · exact .inl ⟨h, by simp [State.keyOf?, h]⟩
  · exact .inr ⟨by omega, by simp [State.keyOf?, h]⟩

/-- The least pressed key is found (R158). -/
theorem State.lowestPressed?_eq_some {s : State} {k : Key} (hk : s.keypad[k] = true)
    (hmin : ∀ j : Key, j < k → s.keypad[j] = false) : s.lowestPressed? = some k := by
  rw [State.lowestPressed?, List.find?_eq_some_iff_getElem]
  refine ⟨hk, k.val, by simp, by simp, fun j hj => ?_⟩
  simpa using hmin ⟨j, by omega⟩ hj

/-- With no key pressed none is found (R158). -/
theorem State.lowestPressed?_eq_none {s : State} (h : ∀ k : Key, s.keypad[k] = false) : s.lowestPressed? = none := by
  rw [State.lowestPressed?, List.find?_eq_none]
  intro k _
  simpa using h k

end Sys2Proof.Machine
end

