-- ==== Sys2Proof/Laws/Draw.lean ====
section
/-! SUPPORT. What the draw unit does to a cell and to the collision flag: the loops of R147 read as one toggle of the cells the sprite
hits. -/

namespace Sys2Proof.Machine

/-- The columns of one sprite row are distinct modulo 64 (R147, 6). -/
theorem spriteCol_inj {vx : Byte} {k j : Nat} (hk : k < 64) (hj : j < 64) (h : spriteCol vx k = spriteCol vx j) : k = j := by
  have := congrArg Fin.val h
  simp only [spriteCol, Fin.val_ofNat] at this
  omega

/-- The rows of one sprite are distinct modulo 32 (R147, 6). -/
theorem spriteRow_inj {vy : Byte} {k j : Nat} (hk : k < 32) (hj : j < 32) (h : spriteRow vy k = spriteRow vy j) : k = j := by
  have := congrArg Fin.val h
  simp only [spriteRow, Fin.val_ofNat] at this
  omega

/-- The first `m` columns of a sprite row (R147). -/
def plotCols (vx : Byte) (row : Fin 32) (b : Byte) (m : Nat) (acc : DrawAccum) : DrawAccum :=
  (List.range m).foldl (fun acc c => if spriteBit b c then plotCell row (spriteCol vx c) acc else acc) acc

theorem plotRow_eq (vx : Byte) (row : Fin 32) (b : Byte) (acc : DrawAccum) :
    plotRow vx row b acc = plotCols vx row b 8 acc := rfl

theorem plotCols_succ (vx : Byte) (row : Fin 32) (b : Byte) (m : Nat) (acc : DrawAccum) :
    plotCols vx row b (m + 1) acc =
      if spriteBit b m then plotCell row (spriteCol vx m) (plotCols vx row b m acc) else plotCols vx row b m acc := by
  simp [plotCols, List.range_succ]

/-- Cell `(r, c)` is where a set bit among the first `m` of a sprite row falls. -/
def RowHits (vx : Byte) (row : Fin 32) (b : Byte) (m : Nat) (r : Fin 32) (c : Fin 64) : Prop :=
  r = row ∧ ∃ k, k < m ∧ spriteBit b k = true ∧ c = spriteCol vx k

/-- The columns drawn toggle exactly the cells they hit. -/
theorem plotCols_cell (vx : Byte) (row : Fin 32) (b : Byte) {m : Nat} (hm : m ≤ 64) (acc : DrawAccum) (r : Fin 32) (c : Fin 64) :
    (RowHits vx row b m r c → (plotCols vx row b m acc).1.cell r c = !acc.1.cell r c) ∧
      (¬ RowHits vx row b m r c → (plotCols vx row b m acc).1.cell r c = acc.1.cell r c) := by
  induction m with
  | zero => exact ⟨fun ⟨_, k, hk, _⟩ => by omega, fun _ => rfl⟩
  | succ m ih =>
    obtain ⟨ihHit, ihMiss⟩ := ih (by omega)
    rw [plotCols_succ]
    by_cases hb : spriteBit b m = true
    · rw [if_pos hb, plotCell, Framebuffer.cell_toggle]
      by_cases hrc : r = row ∧ c = spriteCol vx m
      · have hmiss : ¬ RowHits vx row b m r c := by
          rintro ⟨-, k, hk, -, hck⟩
          have := spriteCol_inj (by omega) (by omega) (hrc.2.symm.trans hck)
          omega
        have hhit : RowHits vx row b (m + 1) r c := ⟨hrc.1, m, by omega, hb, hrc.2⟩
        refine ⟨fun _ => ?_, fun h => absurd hhit h⟩
        rw [if_pos hrc, ← ihMiss hmiss, hrc.1, hrc.2]
      · rw [if_neg hrc]
        have hiff : RowHits vx row b (m + 1) r c ↔ RowHits vx row b m r c := by
          constructor
          · rintro ⟨hr, k, hk, hbk, hck⟩
            refine ⟨hr, k, ?_, hbk, hck⟩
            rcases Nat.lt_succ_iff_lt_or_eq.mp hk with h | rfl
            · exact h
            · exact absurd ⟨hr, hck⟩ hrc
          · rintro ⟨hr, k, hk, hbk, hck⟩
            exact ⟨hr, k, by omega, hbk, hck⟩
        exact ⟨fun h => ihHit (hiff.mp h), fun h => ihMiss fun h' => h (hiff.mpr h')⟩
    · rw [if_neg hb]
      have hiff : RowHits vx row b (m + 1) r c ↔ RowHits vx row b m r c := by
        constructor
        · rintro ⟨hr, k, hk, hbk, hck⟩
          refine ⟨hr, k, ?_, hbk, hck⟩
          rcases Nat.lt_succ_iff_lt_or_eq.mp hk with h | rfl
          · exact h
          · exact absurd hbk hb
        · rintro ⟨hr, k, hk, hbk, hck⟩
          exact ⟨hr, k, by omega, hbk, hck⟩
      exact ⟨fun h => ihHit (hiff.mp h), fun h => ihMiss fun h' => h (hiff.mpr h')⟩

/-- The columns drawn collide exactly when one of the cells they hit was true. -/
theorem plotCols_collision (vx : Byte) (row : Fin 32) (b : Byte) {m : Nat} (hm : m ≤ 64) (acc : DrawAccum) :
    (plotCols vx row b m acc).2 = true ↔
      acc.2 = true ∨ ∃ r c, RowHits vx row b m r c ∧ acc.1.cell r c = true := by
  induction m with
  | zero =>
    constructor
    · exact .inl
    · rintro (h | ⟨r, c, ⟨-, k, hk, -⟩, -⟩)
      · exact h
      · omega
  | succ m ih =>
    have ih := ih (by omega)
    rw [plotCols_succ]
    by_cases hb : spriteBit b m = true
    · have hmiss : ¬ RowHits vx row b m row (spriteCol vx m) := by
        rintro ⟨-, k, hk, -, hck⟩
        have := spriteCol_inj (by omega) (by omega) hck
        omega
      have hcell := (plotCols_cell vx row b (m := m) (by omega) acc row (spriteCol vx m)).2 hmiss
      rw [if_pos hb, plotCell]
      simp only [Bool.or_eq_true, ih, hcell]
      constructor
      · rintro ((h | ⟨r, c, ⟨hr, k, hk, hrest⟩, ht⟩) | h)
        · exact .inl h
        · exact .inr ⟨r, c, ⟨hr, k, by omega, hrest⟩, ht⟩
        · exact .inr ⟨row, spriteCol vx m, ⟨rfl, m, by omega, hb, rfl⟩, h⟩
      · rintro (h | ⟨r, c, ⟨hr, k, hk, hbk, hck⟩, ht⟩)
        · exact .inl (.inl h)
        · rcases Nat.lt_succ_iff_lt_or_eq.mp hk with h | rfl
          · exact .inl (.inr ⟨r, c, ⟨hr, k, h, hbk, hck⟩, ht⟩)
          · subst hr hck; exact .inr ht
    · rw [if_neg hb, ih]
      constructor
      · rintro (h | ⟨r, c, ⟨hr, k, hk, hrest⟩, ht⟩)
        · exact .inl h
        · exact .inr ⟨r, c, ⟨hr, k, by omega, hrest⟩, ht⟩
      · rintro (h | ⟨r, c, ⟨hr, k, hk, hbk, hck⟩, ht⟩)
        · exact .inl h
        · rcases Nat.lt_succ_iff_lt_or_eq.mp hk with h | rfl
          · exact .inr ⟨r, c, ⟨hr, k, h, hbk, hck⟩, ht⟩
          · exact absurd hbk hb

theorem State.plotSprite_succ (s : State) (vx vy : Byte) (n : Nat) :
    s.plotSprite vx vy (n + 1) =
      plotRow vx (spriteRow vy n) (s.readByte (s.dataAddr n)) (s.plotSprite vx vy n) := by
  simp [State.plotSprite, List.range_succ]

/-- A sprite of one more row hits what it hit and what that row hits. -/
theorem spriteHits_succ (s : State) (vx vy : Byte) (n : Nat) (r : Fin 32) (c : Fin 64) :
    SpriteHits s vx vy (n + 1) r c ↔
      SpriteHits s vx vy n r c ∨ RowHits vx (spriteRow vy n) (s.readByte (s.dataAddr n)) 8 r c := by
  constructor
  · rintro ⟨i, k, hi, hk, hr, hc, hb⟩
    rcases Nat.lt_succ_iff_lt_or_eq.mp hi with h | rfl
    · exact .inl ⟨i, k, h, hk, hr, hc, hb⟩
    · exact .inr ⟨Fin.ext (by simpa [spriteRow] using hr), k, hk, hb, Fin.ext (by simpa [spriteCol] using hc)⟩
  · rintro (⟨i, k, hi, hk, hrest⟩ | ⟨hr, k, hk, hb, hc⟩)
    · exact ⟨i, k, by omega, hk, hrest⟩
    · exact ⟨n, k, by omega, hk, by simp [hr, spriteRow], by simp [hc, spriteCol], hb⟩

/-- A new row of the sprite hits no cell an earlier row has hit (R147, 6). -/
theorem not_spriteHits_of_rowHits {s : State} {vx vy : Byte} {n : Nat} (hn : n < 32) {b : Byte} {r : Fin 32} {c : Fin 64}
    (h : RowHits vx (spriteRow vy n) b 8 r c) : ¬ SpriteHits s vx vy n r c := by
  rintro ⟨i, k, hi, -, hr, -⟩
  have hrow : spriteRow vy n = spriteRow vy i := by
    apply Fin.ext
    rw [← h.1, hr]
    simp [spriteRow]
  have := spriteRow_inj hn (by omega) hrow
  omega

/-- Drawing a sprite toggles exactly the cells it hits, and collides exactly when one of them was true (R147). -/
theorem State.plotSprite_spec (s : State) (vx vy : Byte) {n : Nat} (hn : n ≤ 32) :
    (∀ r c, (SpriteHits s vx vy n r c → (s.plotSprite vx vy n).1.cell r c = !s.fb.cell r c) ∧
      (¬ SpriteHits s vx vy n r c → (s.plotSprite vx vy n).1.cell r c = s.fb.cell r c)) ∧
    ((s.plotSprite vx vy n).2 = true ↔ ∃ r c, SpriteHits s vx vy n r c ∧ s.fb.cell r c = true) := by
  induction n with
  | zero =>
    refine ⟨fun r c => ⟨fun ⟨i, _, hi, _⟩ => by omega, fun _ => rfl⟩, ?_⟩
    constructor
    · intro h; simp [State.plotSprite] at h
    · rintro ⟨r, c, ⟨i, _, hi, _⟩, _⟩; omega
  | succ n ih =>
    obtain ⟨ihCell, ihHit⟩ := ih (by omega)
    rw [State.plotSprite_succ, plotRow_eq]
    refine ⟨fun r c => ?_, ?_⟩
    · obtain ⟨hHit, hMiss⟩ := plotCols_cell vx (spriteRow vy n) (s.readByte (s.dataAddr n)) (m := 8) (by omega)
        (s.plotSprite vx vy n) r c
      rw [spriteHits_succ]
      by_cases hrow : RowHits vx (spriteRow vy n) (s.readByte (s.dataAddr n)) 8 r c
      · have hnot := not_spriteHits_of_rowHits (s := s) (by omega) hrow
        exact ⟨fun _ => by rw [hHit hrow, (ihCell r c).2 hnot], fun h => absurd (.inr hrow) h⟩
      · rw [hMiss hrow]
        exact ⟨fun h => (ihCell r c).1 (h.resolve_right hrow), fun h => (ihCell r c).2 fun h' => h (.inl h')⟩
    · rw [plotCols_collision _ _ _ (by omega), ihHit]
      constructor
      · rintro (⟨r, c, h, ht⟩ | ⟨r, c, h, ht⟩)
        · exact ⟨r, c, (spriteHits_succ ..).mpr (.inl h), ht⟩
        · have hnot := not_spriteHits_of_rowHits (s := s) (by omega) h
          exact ⟨r, c, (spriteHits_succ ..).mpr (.inr h), by rw [← (ihCell r c).2 hnot]; exact ht⟩
      · rintro ⟨r, c, h, ht⟩
        rcases (spriteHits_succ ..).mp h with h | h
        · exact .inl ⟨r, c, h, ht⟩
        · have hnot := not_spriteHits_of_rowHits (s := s) (by omega) h
          exact .inr ⟨r, c, h, by rw [(ihCell r c).2 hnot]; exact ht⟩

/-- Framebuffers with the same cells are equal (R34). -/
theorem Framebuffer.ext_cell {fb fb' : Framebuffer} (h : ∀ r c, fb.cell r c = fb'.cell r c) : fb = fb' := by
  apply Vector.ext
  intro i hi
  apply Vector.ext
  intro j hj
  exact h ⟨i, hi⟩ ⟨j, hj⟩

end Sys2Proof.Machine
end

