-- ==== Sys2Proof/Laws/Scheduler.lean ====
section
/-! SUPPORT. The comparators as rationals, the Timer Unit, and what one step can do. -/

namespace Sys2Proof.Machine

/-! ### Comparators (R181, R184) -/

/-- The period is one over the rate. -/
theorem period_eq {rate : Nat} (h : 0 < rate) : period rate = 1 / (rate : Rat) := by
  have hne : rate ≠ 0 := Nat.pos_iff_ne_zero.mp h
  rw [period, dif_neg hne, ← Rat.num_div_den ⟨1, rate, hne, Nat.coprime_one_left rate⟩]
  simp

/-- The whole-number comparison is `accumulator >= 1/rate`. -/
theorem periodDue_iff {rate : Nat} (h : 0 < rate) (accum : Time) : periodDue rate accum = true ↔ 1 / (rate : Rat) ≤ accum := by
  have hrate : (0 : Rat) < rate := by exact_mod_cast h
  have hden : (0 : Rat) < accum.den := by exact_mod_cast accum.den_pos
  rw [periodDue, decide_eq_true_iff, div_le_iff₀ hrate]
  conv_rhs => rw [← Rat.num_div_den accum]
  rw [div_mul_eq_mul_div, le_div_iff₀ hden, one_mul]
  exact_mod_cast Iff.rfl

theorem periodDue_eq_false_iff {rate : Nat} (h : 0 < rate) (accum : Time) :
    periodDue rate accum = false ↔ accum < 1 / (rate : Rat) := by
  rw [← not_le, ← periodDue_iff h]; simp

/-! ### Timer Unit (R185) -/

/-- A timer falls by one to a floor of 0. -/
theorem countDown_toNat (b : Byte) : (countDown b).toNat = b.toNat - 1 := by
  rw [countDown]
  split <;> bv_omega

/-! ### What one step can do -/

/-- A negative time is what makes an `advance` input ill formed (R181). -/
theorem advance_wf_iff (elapsed : Time) : (HostInput.advance elapsed).wf = true ↔ 0 ≤ elapsed := by
  simp [HostInput.wf]

/-- Between calls a step is a move of the host (R182). -/
theorem step_idle {s : State} (hf : s.cfg.wf = true) (hh : s.halted = none) (hp : s.phase = .idle) : step s = hostMove s := by
  rw [step, schedule, if_pos hf]; simp only [hh, hp]

/-- In the timer loop a step is a pass of it (R182). -/
theorem step_timerLoop {s : State} {elapsed : Time} (hf : s.cfg.wf = true) (hh : s.halted = none)
    (hp : s.phase = .timerLoop elapsed) : step s = timerLoopPass elapsed s := by
  rw [step, schedule, if_pos hf]; simp only [hh, hp]

/-- In the CPU loop a step is a pass of it (R182). -/
theorem step_cpuLoop {s : State} (hf : s.cfg.wf = true) (hh : s.halted = none) (hp : s.phase = .cpuLoop) :
    step s = cpuLoopPass s := by
  rw [step, schedule, if_pos hf]; simp only [hh, hp]

/-- One step is a run of steps. -/
theorem StepsTo.one {s t : State} (h : step s = .next t) : StepsTo s t := .head h (.refl t)

/-- Runs of steps join. -/
theorem StepsTo.trans {s t u : State} (h : StepsTo s t) (h' : StepsTo t u) : StepsTo s u := by
  induction h with
  | refl => exact h'
  | head h _ ih => exact .head h (ih h')

/-- The steps of the machine: a host move or a wait, a pass of the timer loop, a pass of the CPU loop. Every step that answers a
next state is one of these. -/
theorem step_cases {s t : State} (h : step s = .next t) :
    s.cfg.wf = true ∧ s.halted = none ∧
      ((s.phase = .idle ∧ s.inputs = [] ∧ t = s) ∨
        (∃ keys rest, s.phase = .idle ∧ s.inputs = .setKeypad keys :: rest ∧ t = { s with keypad := keys, inputs := rest }) ∨
        (∃ elapsed rest, s.phase = .idle ∧ s.inputs = .advance elapsed :: rest ∧ 0 ≤ elapsed ∧
          t = { s with timerAccum := s.timerAccum + elapsed, phase := .timerLoop elapsed, inputs := rest }) ∨
        (∃ elapsed, s.phase = .timerLoop elapsed ∧ 1 / 60 ≤ s.timerAccum ∧
          t = timerTick { s with timerAccum := s.timerAccum - 1 / 60 }) ∨
        (∃ elapsed, s.phase = .timerLoop elapsed ∧ s.timerAccum < 1 / 60 ∧
          t = { s with cpuAccum := s.cpuAccum + elapsed, phase := .cpuLoop }) ∨
        (s.phase = .cpuLoop ∧ 1 / (s.cfg.cpuFrequency : Rat) ≤ s.cpuAccum ∧
          invoke { s with cpuAccum := s.cpuAccum - 1 / (s.cfg.cpuFrequency : Rat) } = .next t) ∨
        (s.phase = .cpuLoop ∧ s.cpuAccum < 1 / (s.cfg.cpuFrequency : Rat) ∧ t = endCall s)) := by
  rw [step, schedule] at h
  split at h
  · rename_i hwf
    have hf : 0 < s.cfg.cpuFrequency := of_decide_eq_true hwf
    refine ⟨hwf, ?_⟩
    split at h
    · cases h
    · rename_i hh
      refine ⟨hh, ?_⟩
      split at h
      · rename_i hp
        rw [hostMove] at h
        split at h
        · rename_i hi; cases h; exact .inl ⟨hp, hi, rfl⟩
        · rename_i keys rest hi; cases h; exact .inr (.inl ⟨keys, rest, hp, hi, rfl⟩)
        · rename_i elapsed rest hi
          split at h
          · rename_i hw; cases h
            exact .inr (.inr (.inl ⟨elapsed, rest, hp, hi, (advance_wf_iff elapsed).mp hw, rfl⟩))
          · cases h
      · rename_i elapsed hp
        rw [timerLoopPass] at h
        split at h
        · rename_i hd
          rw [periodDue_iff (by decide)] at hd
          cases h
          refine .inr (.inr (.inr (.inl ⟨elapsed, hp, by simpa using hd, ?_⟩)))
          rw [period_eq (by decide)]; norm_num
        · rename_i hd
          rw [Bool.not_eq_true, periodDue_eq_false_iff (by decide)] at hd
          cases h
          exact .inr (.inr (.inr (.inr (.inl ⟨elapsed, hp, by simpa using hd, rfl⟩))))
      · rename_i hp
        rw [cpuLoopPass] at h
        split at h
        · rename_i hd
          rw [periodDue_iff hf] at hd
          rw [period_eq hf] at h
          exact .inr (.inr (.inr (.inr (.inr (.inl ⟨hp, hd, h⟩)))))
        · rename_i hd
          rw [Bool.not_eq_true, periodDue_eq_false_iff hf] at hd
          cases h
          exact .inr (.inr (.inr (.inr (.inr (.inr ⟨hp, hd, rfl⟩)))))
  · cases h

/-! ### What one invocation can do -/

/-- The three ways an invocation goes: the fetch bound fails, no row selects the word, or the decoded instruction runs. -/
theorem invoke_cases (s : State) :
    (4094 < s.pc.toNat ∧ invoke s = .next (s.fail (.pcOutOfBounds s.pc))) ∨
      (s.pc.toNat ≤ 4094 ∧ (∃ e, decode s.fetchBytes = .error e) ∧
        invoke s = .next (s.fail (.decodeFailure s.fetchWord s.pc))) ∨
      ∃ i, s.pc.toNat ≤ 4094 ∧ decode s.fetchBytes = .ok i ∧ invoke s = exec i { s with drawFlag := false } := by
  rw [invoke]
  by_cases hpc : 4094 < s.pc.toNat
  · exact .inl ⟨hpc, by simp [hpc, State.raise, State.fail]⟩
  · refine .inr ?_
    have hle : s.pc.toNat ≤ 4094 := by omega
    have hfetch : State.fetchBytes { s with drawFlag := false } = s.fetchBytes := rfl
    cases hd : decode s.fetchBytes with
    | error e => exact .inl ⟨hle, ⟨e, rfl⟩, by simp [hpc, hfetch, hd, State.raise, State.fail, State.fetchWord, State.readByte]⟩
    | ok i => exact .inr ⟨i, hle, rfl, by simp [hpc, hfetch, hd]⟩

end Sys2Proof.Machine
end

