-- ==== Sys2Proof/Laws/Exec.lean ====
section
/-! SUPPORT. What an instruction can do, said once: it fails, or it has an effect that touches only what an instruction may. -/

namespace Sys2Proof.Machine

/-! ### The instructions that branch, in one equation each -/

theorem exec_call_push (nnn : Addr12) {s : State} (h : s.sp.val < 16) :
    exec (.call nnn) s = .next
      { s with stack := s.stack.set s.sp.val s.pc, sp := ⟨s.sp.val + 1, by omega⟩, pc := addrWord nnn } := by
  simp [exec, execCall, State.pushPc?, h, State.jump]

theorem exec_ret_pop {s : State} (h : 0 < s.sp.val) :
    exec .ret s = .next
      { s with sp := ⟨s.sp.val - 1, by omega⟩, pc := s.stack[s.sp.val - 1]'(by omega) + 2 } := by
  simp [exec, execRet, State.popPc?, h, State.advance]

/-- What `DRW` leaves when it does not fail (R147). -/
def drawnState (x y : Reg) (n : Nat) (s : State) : State :=
  let drawn := s.plotSprite (s.readV x) (s.readV y) n
  ({ s with fb := drawn.1, drawFlag := true }.writeFlag drawn.2).advance

theorem exec_drw_draws (x y : Reg) {n : Nat} {s : State} (h : 1 ≤ n → s.i.toNat + n - 1 ≤ 4095) :
    exec (.drw x y n) s = .next (drawnState x y n s) := by
  simp only [exec, execDrw, State.accessFailure_eq_none.mpr h, drawnState]

/-! ### Shifts -/

theorem State.readV_prepareShift (s : State) (x y : Reg) :
    (s.prepareShift x y).readV x = if s.cfg.shiftQuirk then s.readV x else s.readV y := by
  rw [State.prepareShift]; split <;> simp

/-- Preparing a shift writes `V` at most. -/
theorem State.prepareShift_eq (s : State) (x y : Reg) : s.prepareShift x y = { s with v := (s.prepareShift x y).v } := by
  rw [State.prepareShift]; split <;> rfl

theorem lowBit_eq (b : Byte) : lowBit b = decide (b.toNat % 2 = 1) := by
  simp [lowBit, BitVec.getLsbD, Nat.testBit_zero]

theorem highBit_eq (b : Byte) : highBit b = decide (128 ≤ b.toNat) := by
  revert b; decide

/-! ### Registers other than those an instruction writes -/

theorem sameRegistersBut_writeV (s : State) (x : Reg) (b : Byte) : SameRegistersBut s (s.writeV x b).advance [x] :=
  fun r hr => by
    simp only [List.mem_singleton] at hr
    simp [State.readV_writeV_ne _ _ hr]

theorem sameRegistersBut_flagged (s : State) (x : Reg) (f : Bool) (b : Byte) :
    SameRegistersBut s ((s.writeFlag f).writeV x b).advance [x, 15] := fun r hr => by
  simp only [List.mem_cons, List.not_mem_nil, or_false, not_or] at hr
  simp [State.readV_writeV_ne _ _ hr.1, State.readV_writeFlag, hr.2]

theorem sameRegistersBut_shifted (s : State) (x y : Reg) (f : Bool) (b : Byte) :
    SameRegistersBut s (((s.prepareShift x y).writeFlag f).writeV x b).advance [x, 15] := fun r hr => by
  rw [sameRegistersBut_flagged (s.prepareShift x y) x f b r hr]
  simp only [List.mem_cons, List.not_mem_nil, or_false, not_or] at hr
  rw [State.prepareShift]
  split
  · rfl
  · simp [State.readV_writeV_ne _ _ hr.1]

/-! ### Blocks of registers -/

theorem State.registersUpTo_length (s : State) (x : Reg) : (s.registersUpTo x).length = x.val + 1 := by
  have := x.isLt
  simp [State.registersUpTo]

theorem State.registersUpTo_getElem (s : State) (x : Reg) {k : Nat} (h : k < (s.registersUpTo x).length) :
    (s.registersUpTo x)[k] = s.readV ⟨k, by rw [State.registersUpTo_length] at h; omega⟩ := by
  simp [State.registersUpTo, State.readV]

/-! ### What any instruction can do -/

/-- What an instruction that does not fail may do to the state, whatever it is: the other agents' state and `halted` stay, memory
changes only by a run of bytes from 80 up inside it, a timer only by its own load, the screen and `drawFlag` only by `CLS` and
`DRW`, the stack and `PC` only in the ways of R23. -/
structure Effect (i : Instr) (s t : State) : Prop where
  keypad : t.keypad = s.keypad
  cfg : t.cfg = s.cfg
  timerAccum : t.timerAccum = s.timerAccum
  cpuAccum : t.cpuAccum = s.cpuAccum
  phase : t.phase = s.phase
  inputs : t.inputs = s.inputs
  halted : t.halted = s.halted
  mem : t.mem = s.mem ∨ ∃ (base : Nat) (bs : List Byte), 80 ≤ base ∧ base + bs.length ≤ 4096 ∧
    t.mem = Memory.writeRun s.cfg.font s.mem base bs
  dt : t.dt = s.dt ∨ ∃ x, i = .ldDtVx x ∧ t.dt = s.readV x
  st : t.st = s.st ∨ ∃ x, i = .ldStVx x ∧ t.st = s.readV x
  screen : (t.drawFlag = true ∧ (i = .cls ∨ ∃ x y n, i = .drw x y n)) ∨
    (t.fb = s.fb ∧ t.drawFlag = s.drawFlag ∧ i ≠ .cls ∧ ∀ x y n, i ≠ .drw x y n)
  flow : (t.sp = s.sp ∧ t.stack = s.stack ∧
      (t.pc = s.pc ∨ t.pc = s.pc + 2 ∨ t.pc = s.pc + 4 ∨ t.pc.toNat ≤ 4350)) ∨
    (∃ h : s.sp.val < 16, t.sp.val = s.sp.val + 1 ∧ t.stack = s.stack.set s.sp.val s.pc ∧ t.pc.toNat ≤ 4095) ∨
    (∃ h : 0 < s.sp.val, t.sp.val = s.sp.val - 1 ∧ t.stack = s.stack ∧ t.pc = s.stack[s.sp.val - 1]'(by omega) + 2)

/-- An effect on registers, `I`, timers, draws and `PC` by 0, 2 or 4. -/
theorem effect_of_registers {i : Instr} {s t : State} (ht : t = { s with v := t.v, i := t.i, pc := t.pc, draws := t.draws })
    (hpc : t.pc = s.pc ∨ t.pc = s.pc + 2 ∨ t.pc = s.pc + 4 ∨ t.pc.toNat ≤ 4350)
    (hi : i ≠ .cls ∧ ∀ x y n, i ≠ .drw x y n) : Effect i s t := by
  rw [ht]
  exact ⟨rfl, rfl, rfl, rfl, rfl, rfl, rfl, .inl rfl, .inl rfl, .inl rfl, .inr ⟨rfl, rfl, hi⟩, .inl ⟨rfl, rfl, hpc⟩⟩

theorem skipIf_pc (s : State) (c : Bool) :
    (s.skipIf c).pc = s.pc ∨ (s.skipIf c).pc = s.pc + 2 ∨ (s.skipIf c).pc = s.pc + 4 ∨ (s.skipIf c).pc.toNat ≤ 4350 := by
  cases c <;> simp

theorem addrWord_toNat (nnn : Addr12) : (addrWord nnn).toNat = nnn.toNat := by simp [addrWord]; omega

theorem byteWord_toNat (b : Byte) : (byteWord b).toNat = b.toNat := by simp [byteWord]; omega

/-- Every instruction answers a next state: it fails, or it has an `Effect`. -/
theorem exec_cases (i : Instr) (s : State) :
    ∃ t, exec i s = .next t ∧ ((∃ f, t = s.fail f) ∨ Effect i s t) := by
  cases i with
  | cls => exact ⟨_, rfl, .inr ⟨rfl, rfl, rfl, rfl, rfl, rfl, rfl, .inl rfl, .inl rfl, .inl rfl, .inl ⟨rfl, .inl rfl⟩,
      .inl ⟨rfl, rfl, .inr (.inl rfl)⟩⟩⟩
  | ret =>
    rcases s.popPc?_eq with ⟨h, -⟩ | ⟨-, hp⟩
    · exact ⟨_, exec_ret_pop h, .inr ⟨rfl, rfl, rfl, rfl, rfl, rfl, rfl, .inl rfl, .inl rfl, .inl rfl,
        .inr ⟨rfl, rfl, by simp, by simp⟩, .inr (.inr ⟨h, rfl, rfl, rfl⟩)⟩⟩
    · exact ⟨s.fail (.stackUnderflow s.pc), by rw [exec, execRet, hp]; rfl, .inl ⟨_, rfl⟩⟩
  | jp nnn => exact ⟨_, rfl, .inr (effect_of_registers rfl
      (.inr (.inr (.inr (by rw [State.jump_pc, addrWord_toNat]; omega)))) ⟨by simp, by simp⟩)⟩
  | call nnn =>
    rcases s.pushPc?_eq with ⟨h, -⟩ | ⟨-, hp⟩
    · exact ⟨_, exec_call_push nnn h, .inr ⟨rfl, rfl, rfl, rfl, rfl, rfl, rfl, .inl rfl, .inl rfl, .inl rfl,
        .inr ⟨rfl, rfl, by simp, by simp⟩, .inr (.inl ⟨h, rfl, rfl, by rw [addrWord_toNat]; omega⟩)⟩⟩
    · exact ⟨s.fail (.stackOverflow s.pc), by rw [exec, execCall, hp]; rfl, .inl ⟨_, rfl⟩⟩
  | seByte x kk => exact ⟨_, rfl, .inr (effect_of_registers rfl (skipIf_pc _ _) ⟨by simp, by simp⟩)⟩
  | sneByte x kk => exact ⟨_, rfl, .inr (effect_of_registers rfl (skipIf_pc _ _) ⟨by simp, by simp⟩)⟩
  | seReg x y => exact ⟨_, rfl, .inr (effect_of_registers rfl (skipIf_pc _ _) ⟨by simp, by simp⟩)⟩
  | sneReg x y => exact ⟨_, rfl, .inr (effect_of_registers rfl (skipIf_pc _ _) ⟨by simp, by simp⟩)⟩
  | ldByte x kk => exact ⟨_, rfl, .inr (effect_of_registers rfl (.inr (.inl rfl)) ⟨by simp, by simp⟩)⟩
  | addByte x kk => exact ⟨_, rfl, .inr (effect_of_registers rfl (.inr (.inl rfl)) ⟨by simp, by simp⟩)⟩
  | ldReg x y => exact ⟨_, rfl, .inr (effect_of_registers rfl (.inr (.inl rfl)) ⟨by simp, by simp⟩)⟩
  | orReg x y => exact ⟨_, rfl, .inr (effect_of_registers rfl (.inr (.inl rfl)) ⟨by simp, by simp⟩)⟩
  | andReg x y => exact ⟨_, rfl, .inr (effect_of_registers rfl (.inr (.inl rfl)) ⟨by simp, by simp⟩)⟩
  | xorReg x y => exact ⟨_, rfl, .inr (effect_of_registers rfl (.inr (.inl rfl)) ⟨by simp, by simp⟩)⟩
  | addReg x y => exact ⟨_, rfl, .inr (effect_of_registers rfl (.inr (.inl rfl)) ⟨by simp, by simp⟩)⟩
  | subReg x y => exact ⟨_, rfl, .inr (effect_of_registers rfl (.inr (.inl rfl)) ⟨by simp, by simp⟩)⟩
  | subnReg x y => exact ⟨_, rfl, .inr (effect_of_registers rfl (.inr (.inl rfl)) ⟨by simp, by simp⟩)⟩
  | shr x y =>
    refine ⟨_, rfl, .inr (effect_of_registers ?_ (.inr (.inl ?_)) ⟨by simp, by simp⟩)⟩ <;> rw [State.prepareShift_eq] <;> rfl
  | shl x y =>
    refine ⟨_, rfl, .inr (effect_of_registers ?_ (.inr (.inl ?_)) ⟨by simp, by simp⟩)⟩ <;> rw [State.prepareShift_eq] <;> rfl
  | ldI nnn => exact ⟨_, rfl, .inr (effect_of_registers rfl (.inr (.inl rfl)) ⟨by simp, by simp⟩)⟩
  | jpV0 nnn => exact ⟨_, rfl, .inr (effect_of_registers rfl (.inr (.inr (.inr (by
      rw [State.jump_pc, BitVec.toNat_add, addrWord_toNat, byteWord_toNat]; omega)))) ⟨by simp, by simp⟩)⟩
  | rnd x kk => exact ⟨_, rfl, .inr (effect_of_registers rfl (.inr (.inl rfl)) ⟨by simp, by simp⟩)⟩
  | drw x y n =>
    cases h : s.accessFailure n with
    | some f => exact ⟨s.fail f, by simp only [exec, execDrw, h]; rfl, .inl ⟨_, rfl⟩⟩
    | none =>
      exact ⟨_, exec_drw_draws x y (State.accessFailure_eq_none.mp h), .inr ⟨rfl, rfl, rfl, rfl, rfl, rfl, rfl, .inl rfl,
        .inl rfl, .inl rfl, .inl ⟨rfl, .inr ⟨x, y, n, rfl⟩⟩, .inl ⟨rfl, rfl, .inr (.inl rfl)⟩⟩⟩
  | skp x =>
    cases h : s.keyOf? x with
    | none => exact ⟨s.fail _, by simp only [exec, execSkp, h]; rfl, .inl ⟨_, rfl⟩⟩
    | some k => exact ⟨_, by simp only [exec, execSkp, h]; rfl,
        .inr (effect_of_registers rfl (skipIf_pc _ _) ⟨by simp, by simp⟩)⟩
  | sknp x =>
    cases h : s.keyOf? x with
    | none => exact ⟨s.fail _, by simp only [exec, execSknp, h]; rfl, .inl ⟨_, rfl⟩⟩
    | some k => exact ⟨_, by simp only [exec, execSknp, h]; rfl,
        .inr (effect_of_registers rfl (skipIf_pc _ _) ⟨by simp, by simp⟩)⟩
  | ldVxDt x => exact ⟨_, rfl, .inr (effect_of_registers rfl (.inr (.inl rfl)) ⟨by simp, by simp⟩)⟩
  | ldVxK x =>
    cases h : s.lowestPressed? with
    | none => exact ⟨s, by simp only [exec, execLdVxK, h],
        .inr (effect_of_registers rfl (.inl rfl) ⟨by simp, by simp⟩)⟩
    | some k => exact ⟨_, by simp only [exec, execLdVxK, h]; rfl,
        .inr (effect_of_registers rfl (.inr (.inl rfl)) ⟨by simp, by simp⟩)⟩
  | ldDtVx x => exact ⟨_, rfl, .inr ⟨rfl, rfl, rfl, rfl, rfl, rfl, rfl, .inl rfl, .inr ⟨x, rfl, rfl⟩, .inl rfl,
      .inr ⟨rfl, rfl, by simp, by simp⟩, .inl ⟨rfl, rfl, .inr (.inl rfl)⟩⟩⟩
  | ldStVx x => exact ⟨_, rfl, .inr ⟨rfl, rfl, rfl, rfl, rfl, rfl, rfl, .inl rfl, .inl rfl, .inr ⟨x, rfl, rfl⟩,
      .inr ⟨rfl, rfl, by simp, by simp⟩, .inl ⟨rfl, rfl, .inr (.inl rfl)⟩⟩⟩
  | addIVx x => exact ⟨_, rfl, .inr (effect_of_registers rfl (.inr (.inl rfl)) ⟨by simp, by simp⟩)⟩
  | ldFVx x => exact ⟨_, rfl, .inr (effect_of_registers rfl (.inr (.inl rfl)) ⟨by simp, by simp⟩)⟩
  | ldBVx x =>
    cases h : s.storeFailure 3 with
    | some f => exact ⟨s.fail f, by simp only [exec, execLdBVx, h]; rfl, .inl ⟨_, rfl⟩⟩
    | none =>
      obtain ⟨hend, hfont⟩ := State.storeFailure_eq_none.mp h
      refine ⟨(s.writeBytes s.i.toNat (decimalDigits (s.readV x))).advance, by simp only [exec, execLdBVx, h],
        .inr ⟨rfl, rfl, rfl, rfl, rfl, rfl, rfl, .inr ⟨s.i.toNat, decimalDigits (s.readV x), hfont, ?_, rfl⟩, .inl rfl, .inl rfl,
        .inr ⟨rfl, rfl, by simp, by simp⟩, .inl ⟨rfl, rfl, .inr (.inl rfl)⟩⟩⟩
      have := hend (by omega)
      simp only [decimalDigits, List.length_cons, List.length_nil]
      omega
  | ldMemVx x =>
    cases h : s.storeFailure (x.val + 1) with
    | some f => exact ⟨s.fail f, by simp only [exec, execLdMemVx, h]; rfl, .inl ⟨_, rfl⟩⟩
    | none =>
      obtain ⟨hend, hfont⟩ := State.storeFailure_eq_none.mp h
      refine ⟨(s.writeBytes s.i.toNat (s.registersUpTo x)).advance, by simp only [exec, execLdMemVx, h],
        .inr ⟨rfl, rfl, rfl, rfl, rfl, rfl, rfl, .inr ⟨s.i.toNat, s.registersUpTo x, hfont, ?_, rfl⟩, .inl rfl, .inl rfl,
        .inr ⟨rfl, rfl, by simp, by simp⟩, .inl ⟨rfl, rfl, .inr (.inl rfl)⟩⟩⟩
      have := hend (by omega)
      rw [State.registersUpTo_length]
      omega
  | ldVxMem x =>
    cases h : s.accessFailure (x.val + 1) with
    | some f => exact ⟨s.fail f, by simp only [exec, execLdVxMem, h]; rfl, .inl ⟨_, rfl⟩⟩
    | none => exact ⟨(s.loadRegistersUpTo x).advance, by simp only [exec, execLdVxMem, h],
        .inr (effect_of_registers (by simp only [State.advance, State.loadRegistersUpTo]) (.inr (.inl (by simp)))
          ⟨by simp, by simp⟩)⟩

/-- An invocation answers a next state: a failure, which only clears `drawFlag` and sets `halted`, or an instruction's `Effect` on
the state with `drawFlag` cleared. -/
theorem invoke_effect (s : State) :
    ∃ t, invoke s = .next t ∧ ((∃ f, t = s.fail f) ∨
      ∃ i, s.pc.toNat ≤ 4094 ∧ decode s.fetchBytes = .ok i ∧ Effect i { s with drawFlag := false } t) := by
  rcases invoke_cases s with ⟨-, h⟩ | ⟨-, -, h⟩ | ⟨i, hpc, hd, h⟩
  · exact ⟨_, h, .inl ⟨_, rfl⟩⟩
  · exact ⟨_, h, .inl ⟨_, rfl⟩⟩
  · obtain ⟨t, ht, hf | he⟩ := exec_cases i { s with drawFlag := false }
    · obtain ⟨f, rfl⟩ := hf
      exact ⟨_, h.trans ht, .inl ⟨f, rfl⟩⟩
    · exact ⟨t, h.trans ht, .inr ⟨i, hpc, hd, he⟩⟩

end Sys2Proof.Machine
end

