-- ==== Sys2Proof/Laws/PerInstr.lean ====
section
/-! SUPPORT. The family RowMatch: every well-formed instruction's word is selected by its own row of the opcode map (R80). -/

namespace Sys2Proof.Laws.RowMatch

open Sys2Proof

/-- The word of a well-formed instruction is selected by the row it stands on (R80). -/
def Statement (i : Instr) : Prop := i.wf = true → (rowOf i).selects (encode i) = true

theorem selects_F000 {value w : Word} (h : w.toNat / 4096 * 4096 = value.toNat) :
    OpcodeRow.selects ⟨0xF000, value⟩ w = true := by
  rw [OpcodeRow.selects_iff]; exact (and_mask_F000 w).trans h

theorem selects_F00F {value w : Word} (h : w.toNat / 4096 * 4096 + w.toNat % 16 = value.toNat) :
    OpcodeRow.selects ⟨0xF00F, value⟩ w = true := by
  rw [OpcodeRow.selects_iff]; exact (and_mask_F00F w).trans h

theorem selects_F0FF {value w : Word} (h : w.toNat / 4096 * 4096 + w.toNat % 256 = value.toNat) :
    OpcodeRow.selects ⟨0xF0FF, value⟩ w = true := by
  rw [OpcodeRow.selects_iff]; exact (and_mask_F0FF w).trans h

theorem cls : Statement (.cls) := fun _ => by decide

theorem ret : Statement (.ret) := fun _ => by decide

theorem jp (nnn : Addr12) : Statement (.jp nnn) := fun _ => selects_F000 (by
  rw [encode, formatNNN_toNat (by decide)]; simp; omega)

theorem call (nnn : Addr12) : Statement (.call nnn) := fun _ => selects_F000 (by
  rw [encode, formatNNN_toNat (by decide)]; simp; omega)

theorem seByte (x : Reg) (kk : Byte) : Statement (.seByte x kk) := fun _ => selects_F000 (by
  rw [encode, formatXKK_toNat (by decide)]; simp; omega)

theorem sneByte (x : Reg) (kk : Byte) : Statement (.sneByte x kk) := fun _ => selects_F000 (by
  rw [encode, formatXKK_toNat (by decide)]; simp; omega)

theorem seReg (x y : Reg) : Statement (.seReg x y) := fun _ => selects_F00F (by
  rw [encode, formatXYN_toNat (by decide) x y (by decide)]; simp; omega)

theorem ldByte (x : Reg) (kk : Byte) : Statement (.ldByte x kk) := fun _ => selects_F000 (by
  rw [encode, formatXKK_toNat (by decide)]; simp; omega)

theorem addByte (x : Reg) (kk : Byte) : Statement (.addByte x kk) := fun _ => selects_F000 (by
  rw [encode, formatXKK_toNat (by decide)]; simp; omega)

theorem ldReg (x y : Reg) : Statement (.ldReg x y) := fun _ => selects_F00F (by
  rw [encode, formatXYN_toNat (by decide) x y (by decide)]; simp; omega)

theorem orReg (x y : Reg) : Statement (.orReg x y) := fun _ => selects_F00F (by
  rw [encode, formatXYN_toNat (by decide) x y (by decide)]; simp; omega)

theorem andReg (x y : Reg) : Statement (.andReg x y) := fun _ => selects_F00F (by
  rw [encode, formatXYN_toNat (by decide) x y (by decide)]; simp; omega)

theorem xorReg (x y : Reg) : Statement (.xorReg x y) := fun _ => selects_F00F (by
  rw [encode, formatXYN_toNat (by decide) x y (by decide)]; simp; omega)

theorem addReg (x y : Reg) : Statement (.addReg x y) := fun _ => selects_F00F (by
  rw [encode, formatXYN_toNat (by decide) x y (by decide)]; simp; omega)

theorem subReg (x y : Reg) : Statement (.subReg x y) := fun _ => selects_F00F (by
  rw [encode, formatXYN_toNat (by decide) x y (by decide)]; simp; omega)

theorem shr (x y : Reg) : Statement (.shr x y) := fun _ => selects_F00F (by
  rw [encode, formatXYN_toNat (by decide) x y (by decide)]; simp; omega)

theorem subnReg (x y : Reg) : Statement (.subnReg x y) := fun _ => selects_F00F (by
  rw [encode, formatXYN_toNat (by decide) x y (by decide)]; simp; omega)

theorem shl (x y : Reg) : Statement (.shl x y) := fun _ => selects_F00F (by
  rw [encode, formatXYN_toNat (by decide) x y (by decide)]; simp; omega)

theorem sneReg (x y : Reg) : Statement (.sneReg x y) := fun _ => selects_F00F (by
  rw [encode, formatXYN_toNat (by decide) x y (by decide)]; simp; omega)

theorem ldI (nnn : Addr12) : Statement (.ldI nnn) := fun _ => selects_F000 (by
  rw [encode, formatNNN_toNat (by decide)]; simp; omega)

theorem jpV0 (nnn : Addr12) : Statement (.jpV0 nnn) := fun _ => selects_F000 (by
  rw [encode, formatNNN_toNat (by decide)]; simp; omega)

theorem rnd (x : Reg) (kk : Byte) : Statement (.rnd x kk) := fun _ => selects_F000 (by
  rw [encode, formatXKK_toNat (by decide)]; simp; omega)

theorem drw (x y : Reg) (n : Nat) : Statement (.drw x y n) := fun h => selects_F000 (by
  have hn : n < 16 := by simpa [Instr.wf] using h
  rw [encode, formatXYN_toNat (by decide) x y hn]; simp; omega)

theorem skp (x : Reg) : Statement (.skp x) := fun _ => selects_F0FF (by
  rw [encode, formatXKK_toNat (by decide)]; simp; omega)

theorem sknp (x : Reg) : Statement (.sknp x) := fun _ => selects_F0FF (by
  rw [encode, formatXKK_toNat (by decide)]; simp; omega)

theorem ldVxDt (x : Reg) : Statement (.ldVxDt x) := fun _ => selects_F0FF (by
  rw [encode, formatXKK_toNat (by decide)]; simp; omega)

theorem ldVxK (x : Reg) : Statement (.ldVxK x) := fun _ => selects_F0FF (by
  rw [encode, formatXKK_toNat (by decide)]; simp; omega)

theorem ldDtVx (x : Reg) : Statement (.ldDtVx x) := fun _ => selects_F0FF (by
  rw [encode, formatXKK_toNat (by decide)]; simp; omega)

theorem ldStVx (x : Reg) : Statement (.ldStVx x) := fun _ => selects_F0FF (by
  rw [encode, formatXKK_toNat (by decide)]; simp; omega)

theorem addIVx (x : Reg) : Statement (.addIVx x) := fun _ => selects_F0FF (by
  rw [encode, formatXKK_toNat (by decide)]; simp; omega)

theorem ldFVx (x : Reg) : Statement (.ldFVx x) := fun _ => selects_F0FF (by
  rw [encode, formatXKK_toNat (by decide)]; simp; omega)

theorem ldBVx (x : Reg) : Statement (.ldBVx x) := fun _ => selects_F0FF (by
  rw [encode, formatXKK_toNat (by decide)]; simp; omega)

theorem ldMemVx (x : Reg) : Statement (.ldMemVx x) := fun _ => selects_F0FF (by
  rw [encode, formatXKK_toNat (by decide)]; simp; omega)

theorem ldVxMem (x : Reg) : Statement (.ldVxMem x) := fun _ => selects_F0FF (by
  rw [encode, formatXKK_toNat (by decide)]; simp; omega)

end Sys2Proof.Laws.RowMatch
end

