-- ==== Sys2Proof/Tests/Slice0.lean ====
section
/-! SUPPORT. The model's own tests. Expected results come from the spec: the vectors of 95_test_vectors.md by their ids, the worked
examples of the rules. The last part shows, for each obligation with hypotheses, a state and operands that meet them. -/

namespace Sys2Proof.Tests

open Sys2Proof Sys2Proof.Machine

/-! ## Small states -/

/-- The reset state with some general registers written. -/
def withV (regs : List (Reg × Byte)) : State := regs.foldl (fun s p => s.writeV p.1 p.2) State.reset

/-- A state with `shiftQuirk` false. -/
def noQuirk (s : State) : State := { s with cfg := { s.cfg with shiftQuirk := false } }

/-- A state with some keys pressed. -/
def withKeys (ks : List Key) (s : State) : State := { s with keypad := ks.foldl (fun p (k : Key) => p.set k true) (Vector.replicate 16 false) }

/-- A state with some bytes in memory. -/
def withBytes (a : Nat) (bs : List Byte) (s : State) : State := s.writeBytes a bs

/-- A state with `I` set. -/
def withI (i : Word) (s : State) : State := { s with i := i }

/-- A state with one cell true. -/
def withCell (row : Fin 32) (col : Fin 64) (s : State) : State := { s with fb := s.fb.toggle row col }

/-- The reset state with `n` frames in use, each entry 0x2F0. -/
def withFrames (n : Fin 17) : State := { State.reset with sp := n, stack := Vector.replicate 16 0x2F0 }

/-- One invocation of the word `w`, stored at `PC`, completes in a state of which `p` holds. -/
def runs (w : Word) (s : State) (p : State → Bool) : Bool :=
  match invoke (s.placeWordAtPc w) with
  | .next t => t.halted.isNone && p t
  | .fault _ => false
  | .refused _ => false

/-- One invocation of the word `w`, stored at `PC`, fails with `f`, leaving `p`. -/
def fails (w : Word) (s : State) (f : Failure) (p : State → Bool) : Bool :=
  match invoke (s.placeWordAtPc w) with
  | .next t => t.halted == some f && !t.drawFlag && t.pc == s.pc && p t
  | .fault _ => false
  | .refused _ => false

/-- A step answers a next state of which `p` holds. -/
def stepsTo (s : State) (p : State → Bool) : Bool :=
  match step s with
  | .next t => p t
  | .fault _ => false
  | .refused _ => false

/-! ## Well formed and ill formed -/

theorem test_wf_refuses_sixteen_rows : (Instr.drw 0 1 16).wf = false := by decide
theorem test_wf_accepts_fifteen_rows : (Instr.drw 0 1 15).wf = true := by decide
theorem test_wf_refuses_frequency_zero : Config.wf { defaultConfig with cpuFrequency := 0 } = false := by decide
theorem test_wf_accepts_frequency_one : Config.wf { defaultConfig with cpuFrequency := 1 } = true := by decide
theorem test_wf_refuses_negative_time : (HostInput.advance (-1)).wf = false := by decide
theorem test_wf_accepts_no_time : (HostInput.advance 0).wf = true := by decide
theorem test_wf_refuses_long_rom : romFits (List.replicate 3585 0) = false := by
  rw [romFits, List.length_replicate]; decide
theorem test_wf_accepts_longest_rom : romFits (List.replicate 3584 0) = true := by
  rw [romFits, List.length_replicate]; decide

/-! ## Decoding: one word of each row, written out from R76 and R80 -/

theorem test_decode_flow :
    decodeWord 0b0000000011100000 = .ok .cls ∧ decodeWord 0b0000000011101110 = .ok .ret ∧
    decodeWord 0b0001101010111100 = .ok (.jp 0xABC) ∧ decodeWord 0b0010001100000001 = .ok (.call 0x301) := ⟨rfl, rfl, rfl, rfl⟩

theorem test_decode_skips :
    decodeWord 0b0011000101000010 = .ok (.seByte 1 0x42) ∧ decodeWord 0b0100001000000111 = .ok (.sneByte 2 0x07) ∧
    decodeWord 0b0101001101000000 = .ok (.seReg 3 4) ∧ decodeWord 0b1001001101000000 = .ok (.sneReg 3 4) := ⟨rfl, rfl, rfl, rfl⟩

theorem test_decode_immediates :
    decodeWord 0b0110111110101011 = .ok (.ldByte 15 0xAB) ∧ decodeWord 0b0111001100001010 = .ok (.addByte 3 0x0A) := ⟨rfl, rfl⟩

theorem test_decode_alu :
    decodeWord 0b1000000100100000 = .ok (.ldReg 1 2) ∧ decodeWord 0b1000000100100001 = .ok (.orReg 1 2) ∧
    decodeWord 0b1000000100100010 = .ok (.andReg 1 2) ∧ decodeWord 0b1000000100100011 = .ok (.xorReg 1 2) ∧
    decodeWord 0b1000000100100100 = .ok (.addReg 1 2) ∧ decodeWord 0b1000000100100101 = .ok (.subReg 1 2) ∧
    decodeWord 0b1000000100100110 = .ok (.shr 1 2) ∧ decodeWord 0b1000000100100111 = .ok (.subnReg 1 2) ∧
    decodeWord 0b1000000100101110 = .ok (.shl 1 2) := ⟨rfl, rfl, rfl, rfl, rfl, rfl, rfl, rfl, rfl⟩

theorem test_decode_index_random_draw_keys :
    decodeWord 0b1010001100000000 = .ok (.ldI 0x300) ∧ decodeWord 0b1011111111111111 = .ok (.jpV0 0xFFF) ∧
    decodeWord 0b1100000100001111 = .ok (.rnd 1 0x0F) ∧ decodeWord 0b1101000000010101 = .ok (.drw 0 1 5) ∧
    decodeWord 0b1110001010011110 = .ok (.skp 2) ∧ decodeWord 0b1110001010100001 = .ok (.sknp 2) := ⟨rfl, rfl, rfl, rfl, rfl, rfl⟩

theorem test_decode_misc :
    decodeWord 0b1111001100000111 = .ok (.ldVxDt 3) ∧ decodeWord 0b1111001100001010 = .ok (.ldVxK 3) ∧
    decodeWord 0b1111001100010101 = .ok (.ldDtVx 3) ∧ decodeWord 0b1111001100011000 = .ok (.ldStVx 3) ∧
    decodeWord 0b1111001100011110 = .ok (.addIVx 3) ∧ decodeWord 0b1111001100101001 = .ok (.ldFVx 3) ∧
    decodeWord 0b1111001100110011 = .ok (.ldBVx 3) ∧ decodeWord 0b1111001001010101 = .ok (.ldMemVx 2) ∧
    decodeWord 0b1111001001100101 = .ok (.ldVxMem 2) := ⟨rfl, rfl, rfl, rfl, rfl, rfl, rfl, rfl, rfl⟩

/-- T-F02-8 to 10, T-F39-11 and 12, T-F8-20, T-FE-8, T-FF-30. -/
theorem test_decode_rejects_by_name :
    decodeWord 0x0000 = .error .family0NotListed ∧ decodeWord 0x00E1 = .error .family0NotListed ∧
    decodeWord 0x01E0 = .error .family0NotListed ∧ decodeWord 0x5121 = .error .family5LowNibble ∧
    decodeWord 0x9121 = .error .family9LowNibble ∧ decodeWord 0x8128 = .error .family8LowNibble ∧
    decodeWord 0x812F = .error .family8LowNibble ∧ decodeWord 0xE29F = .error .familyELowByte ∧
    decodeWord 0xE000 = .error .familyELowByte ∧ decodeWord 0xF375 = .error .familyFLowByte ∧
    decode [0x12] = .error .truncated := ⟨rfl, rfl, rfl, rfl, rfl, rfl, rfl, rfl, rfl, rfl, rfl⟩

theorem test_decodeTableWord : decodeTableWord 16 0x60EA = some (.ldByte 0 0xEA) ∧ decodeTableWord 16 0x0000 = none := by decide

/-! ## Families 0, 1, 2, B -/

/-- T-F02-1. -/
theorem test_cls : runs 0x00E0 (withCell 3 4 State.reset) (fun t =>
    !t.fb.cell 3 4 && t.drawFlag && t.pc == 0x202) = true := by decide
/-- T-F02-5. -/
theorem test_ret : runs 0x00EE (withFrames 1) (fun t => t.sp == 0 && t.pc == 0x2F2 && t.stack[0] == 0x2F0) = true := by decide
/-- T-F02-7. -/
theorem test_ret_underflow : fails 0x00EE State.reset (.stackUnderflow 0x200) (fun t => t.sp == 0) = true := by decide
/-- T-F02-2. -/
theorem test_jp : runs 0x1ABC State.reset (fun t => t.pc == 0xABC) = true := by decide
/-- T-F02-11. -/
theorem test_call_sixteenth : runs 0x2ABC (withFrames 15) (fun t =>
    t.stack[15] == 0x200 && t.sp == 16 && t.pc == 0xABC && t.stack[14] == 0x2F0) = true := by decide
/-- T-F02-6. -/
theorem test_call_overflow : fails 0x2300 (withFrames 16) (.stackOverflow 0x200) (fun t =>
    t.sp == 16 && t.stack[15] == 0x2F0) = true := by decide
/-- T-FAC-2. -/
theorem test_jpV0 : runs 0xB300 (withV [(0, 4)]) (fun t => t.pc == 0x304) = true := by decide
/-- T-FAC-3. -/
theorem test_jpV0_is_not_masked : runs 0xBFFF (withV [(0, 0xFF)]) (fun t => t.pc == 0x10FE) = true := by decide

/-! ## Families 3, 4, 5, 9 -/

/-- T-F39-1 and 2. -/
theorem test_seByte : runs 0x3142 (withV [(1, 0x42)]) (fun t => t.pc == 0x204) = true ∧
    runs 0x3143 (withV [(1, 0x42)]) (fun t => t.pc == 0x202) = true := by decide
/-- T-F39-3 and 4. -/
theorem test_sneByte : runs 0x4142 (withV [(1, 0x42)]) (fun t => t.pc == 0x202) = true ∧
    runs 0x4143 (withV [(1, 0x42)]) (fun t => t.pc == 0x204) = true := by decide
/-- T-F39-5 and 7. -/
theorem test_seReg : runs 0x5120 (withV [(1, 7), (2, 7)]) (fun t => t.pc == 0x204) = true ∧
    runs 0x5120 (withV [(1, 7), (2, 8)]) (fun t => t.pc == 0x202) = true := by decide
/-- T-F39-6 and 8. -/
theorem test_sneReg : runs 0x9120 (withV [(1, 7), (2, 7)]) (fun t => t.pc == 0x202) = true ∧
    runs 0x9120 (withV [(1, 7), (2, 8)]) (fun t => t.pc == 0x204) = true := by decide

/-! ## Families 6, 7, 8 -/

/-- T-F67-1. -/
theorem test_ldByte : runs 0x6FAB State.reset (fun t => t.readV 15 == 0xAB && t.pc == 0x202) = true := by decide
/-- T-F67-2. -/
theorem test_addByte_wraps : runs 0x730A (withV [(3, 250)]) (fun t => t.readV 3 == 4 && t.readV 15 == 0) = true := by decide
/-- T-F67-3. -/
theorem test_addByte_to_flag : runs 0x7F01 (withV [(15, 255)]) (fun t => t.readV 15 == 0) = true := by decide
/-- T-F8-1. -/
theorem test_ldReg : runs 0x8120 (withV [(1, 1), (2, 9), (15, 1)]) (fun t => t.readV 1 == 9 && t.readV 15 == 1) = true := by decide
/-- T-F8-2. -/
theorem test_orReg : runs 0x8121 (withV [(1, 0xF0), (2, 0x0F), (15, 1)]) (fun t => t.readV 1 == 0xFF && t.readV 15 == 1) = true := by
  decide
/-- T-F8-3. -/
theorem test_andReg : runs 0x8122 (withV [(1, 0xF0), (2, 0x3C), (15, 1)]) (fun t => t.readV 1 == 0x30 && t.readV 15 == 1) = true := by
  decide
/-- T-F8-4. -/
theorem test_xorReg : runs 0x8123 (withV [(1, 0xF0), (2, 0x3C), (15, 1)]) (fun t => t.readV 1 == 0xCC && t.readV 15 == 1) = true := by
  decide
/-- T-F8-6. -/
theorem test_addReg : runs 0x8124 (withV [(1, 200), (2, 100)]) (fun t => t.readV 1 == 44 && t.readV 15 == 1) = true := by decide
/-- T-F8-30. -/
theorem test_addReg_to_flag : runs 0x8F14 (withV [(15, 200), (1, 100)]) (fun t => t.readV 15 == 44) = true := by decide
/-- T-F8-9. -/
theorem test_subReg : runs 0x8125 (withV [(1, 5), (2, 10)]) (fun t => t.readV 1 == 251 && t.readV 15 == 0) = true := by decide
/-- T-F8-32. -/
theorem test_subReg_by_flag : runs 0x81F5 (withV [(1, 10), (15, 3)]) (fun t => t.readV 1 == 9 && t.readV 15 == 1) = true := by decide
/-- T-F8-15. -/
theorem test_shr : runs 0x8126 (withV [(1, 5), (2, 8)]) (fun t => t.readV 1 == 2 && t.readV 15 == 1 && t.readV 2 == 8) = true := by
  decide
/-- T-F8-16. -/
theorem test_shr_without_quirk : runs 0x8126 (noQuirk (withV [(1, 5), (2, 8)])) (fun t =>
    t.readV 1 == 4 && t.readV 15 == 0 && t.readV 2 == 8) = true := by decide
/-- T-F8-13. -/
theorem test_subnReg : runs 0x8127 (withV [(1, 10), (2, 5)]) (fun t => t.readV 1 == 251 && t.readV 15 == 0) = true := by decide
/-- T-F8-37. -/
theorem test_subnReg_from_flag : runs 0x81F7 (withV [(1, 4), (15, 9)]) (fun t => t.readV 1 == 253 && t.readV 15 == 1) = true := by
  decide
/-- T-F8-17. -/
theorem test_shl : runs 0x812E (withV [(1, 0x81), (2, 8)]) (fun t => t.readV 1 == 2 && t.readV 15 == 1) = true := by decide
/-- T-F8-38. -/
theorem test_shl_of_flag_without_quirk : runs 0x81FE (noQuirk (withV [(1, 3), (15, 0xC1)])) (fun t =>
    t.readV 1 == 130 && t.readV 15 == 1) = true := by decide

/-! ## Families A, C, D, E -/

/-- T-FAC-1. -/
theorem test_ldI : runs 0xAFFF State.reset (fun t => t.i == 0xFFF && t.pc == 0x202) = true := by decide
/-- T-FAC-4: the result for every random byte. -/
theorem test_rnd_masked_out : ∀ s : State, ∃ t, exec (.rnd 3 0) s = .next t ∧ t.readV 3 = 0 := fun s =>
  ⟨_, rfl, by simp [State.advance, State.writeV, State.readV]⟩
/-- T-FD-3. -/
theorem test_drw_collides : runs 0xD011 (withCell 5 11 (withCell 5 12 (withI 0x300 (withBytes 0x300 [0xC0] (withV [(0, 10), (1, 5)])))))
    (fun t => t.fb.cell 5 10 && !t.fb.cell 5 11 && t.fb.cell 5 12 && t.readV 15 == 1 && t.drawFlag) = true := by decide
/-- T-FD-9: both coordinates wrap. -/
theorem test_drw_wraps : runs 0xD011 (withI 0x300 (withBytes 0x300 [0xC0] (withV [(0, 255), (1, 255)])))
    (fun t => t.fb.cell 31 63 && t.fb.cell 31 0 && !t.fb.cell 31 1 && t.readV 15 == 0) = true := by decide
/-- T-FE-1 and 3. -/
theorem test_skp : runs 0xE29E (withKeys [5] (withV [(2, 5)])) (fun t => t.pc == 0x204) = true ∧
    runs 0xE29E (withKeys [2] (withV [(2, 5)])) (fun t => t.pc == 0x202) = true := by decide
/-- T-FE-6. -/
theorem test_skp_no_such_key : fails 0xE29E (withKeys [0] (withV [(2, 16)])) (.keyIndexOutOfRange 16 0x200) (fun _ => true) = true := by
  decide
/-- T-FE-2 and 4. -/
theorem test_sknp : runs 0xE2A1 (withKeys [5] (withV [(2, 5)])) (fun t => t.pc == 0x202) = true ∧
    runs 0xE2A1 (withV [(2, 5)]) (fun t => t.pc == 0x204) = true := by decide
/-- T-FE-7. -/
theorem test_sknp_no_such_key : fails 0xE2A1 (withV [(2, 16)]) (.keyIndexOutOfRange 16 0x200) (fun _ => true) = true := by decide

/-! ## Family F -/

/-- T-FF-1. -/
theorem test_ldVxDt : runs 0xF307 { State.reset with dt := 0x2A } (fun t => t.readV 3 == 0x2A && t.dt == 0x2A) = true := by decide
/-- T-FF-3. -/
theorem test_ldVxK : runs 0xF30A (withKeys [10, 7] State.reset) (fun t => t.readV 3 == 7 && t.pc == 0x202) = true := by decide
/-- T-FF-2. -/
theorem test_ldVxK_waits : runs 0xF30A (withV [(3, 9)]) (fun t => t.readV 3 == 9 && t.pc == 0x200) = true := by decide
/-- T-FF-5. -/
theorem test_ldDtVx : runs 0xF315 (withV [(3, 0x3C)]) (fun t => t.dt == 60 && t.st == 0) = true := by decide
/-- T-FF-6. -/
theorem test_ldStVx : runs 0xF318 (withV [(3, 0x3C)]) (fun t => t.st == 60 && t.dt == 0) = true := by decide
/-- T-FF-7. -/
theorem test_addIVx_wraps : runs 0xF31E (withI 0xFFFF (withV [(3, 1), (15, 7)])) (fun t => t.i == 0 && t.readV 15 == 7) = true := by
  decide
/-- T-FF-8. -/
theorem test_addIVx_is_not_masked : runs 0xF31E (withI 0xFFE (withV [(3, 5)])) (fun t => t.i == 0x1003) = true := by decide
/-- T-FF-11. -/
theorem test_ldFVx : runs 0xF329 (withV [(3, 0xFF)]) (fun t => t.i == 1275) = true := by decide
/-- T-FF-19. -/
theorem test_ldBVx_at_the_top : runs 0xF333 (withI 4093 (withV [(3, 123)])) (fun t =>
    t.readByte 4093 == 1 && t.readByte 4094 == 2 && t.readByte 4095 == 3) = true := by decide
/-- T-FF-20 and T-FF-17. -/
theorem test_ldBVx_fails : fails 0xF333 (withI 4094 (withV [(3, 123)])) (.memOutOfBounds 4094 0x200) (fun t =>
      t.readByte 4094 == 0) = true ∧
    fails 0xF333 (withI 79 (withV [(3, 123)])) (.fontRegionWrite 79 0x200) (fun t => t.readByte 79 == 0x80) = true := by decide
/-- T-FF-21. -/
theorem test_ldMemVx : runs 0xF255 (withI 0x400 (withV [(0, 1), (1, 2), (2, 3), (3, 4)])) (fun t =>
    t.readByte 0x400 == 1 && t.readByte 0x402 == 3 && t.readByte 0x403 == 0 && t.i == 0x400) = true := by decide
/-- T-FF-24. -/
theorem test_ldMemVx_font : fails 0xF055 (withI 79 (withV [(0, 1)])) (.fontRegionWrite 79 0x200) (fun _ => true) = true := by decide
/-- T-FF-25. -/
theorem test_ldVxMem : runs 0xF065 (withI 0x400 (withBytes 0x400 [9, 8, 7] (withV [(1, 0x55)]))) (fun t =>
    t.readV 0 == 9 && t.readV 1 == 0x55 && t.i == 0x400) = true := by decide
/-- T-FF-28. -/
theorem test_ldVxMem_fails : fails 0xF165 (withI 4095 State.reset) (.memOutOfBounds 4095 0x200) (fun _ => true) = true := by decide

/-! ## The invocation, the step, the timers -/

/-- T-STEP-2. -/
theorem test_illegal_word : fails 0x0000 { State.reset with drawFlag := true } (.decodeFailure 0 0x200) (fun _ => true) = true := by decide
/-- T-STEP-4. -/
theorem test_odd_pc : runs 0x6A2B { State.reset with pc := 0x203 } (fun t => t.readV 10 == 0x2B && t.pc == 0x205) = true := by decide
/-- T-STEP-6, and T-STEP-5 for the last legal address. -/
theorem test_fetch_bound : fails 0x1200 { State.reset with pc := 4095 } (.pcOutOfBounds 4095) (fun _ => true) = true ∧
    runs 0x1200 { State.reset with pc := 4094 } (fun t => t.pc == 0x200) = true := by decide
/-- The very next step from reset fetches and runs the word placed. -/
theorem test_step_withFetchWord : stepsTo (State.reset.withFetchWord 16 0x60EA) (fun t => t.readV 0 == 0xEA && t.pc == 0x202) = true := by
  decide
/-- R192, the first comparison: at 1/60 of a second both comparators are due, and a tick comes first (R183). -/
theorem test_tick_before_instruction :
    stepsTo { State.reset with timerAccum := period 60, phase := .timerLoop (period 60), dt := 5 } (fun t => t.dt == 4) = true ∧
    periodDue 700 (period 60) = true := by decide
/-- T-SCH-7: an exact period is due; R192: 1/1050 of a second is not. -/
theorem test_periodDue : periodDue 700 (period 700) = true ∧ periodDue 700 (period 1050) = false := by decide
/-- T-TMR-1 to 4. -/
theorem test_timerTick : (timerTick { State.reset with dt := 1 }).dt = 0 ∧ (timerTick State.reset).dt = 0 ∧
    (timerTick { State.reset with dt := 255, st := 2 }).dt = 254 ∧ (timerTick { State.reset with dt := 255, st := 2 }).st = 1 := by decide
/-- A negative time is refused (R181), a wait changes nothing (R232). -/
theorem test_host_moves : (match step { State.reset with inputs := [.advance (-1)] } with
      | .refused (.negativeElapsed _) => true
      | _ => false) = true ∧
    stepsTo State.reset (fun t => t == State.reset) = true := by decide

/-! ## Witnesses: each obligation's hypotheses are met -/

theorem witness_ConstructionPlacesTheProgramAt512 :
    1 ≤ defaultConfig.cpuFrequency ∧ ([] : List Byte).length ≤ 3584 ∧ (List.replicate 3584 (0 : Byte)).length ≤ 3584 ∧
    3584 < (List.replicate 3585 (0 : Byte)).length ∧ Config.cpuFrequency { defaultConfig with cpuFrequency := 0 } = 0 := by
  simp only [List.length_replicate]; decide

theorem witness_DecodeOfEncodeIsTheInstruction : (Instr.drw 15 15 15).wf = true ∧ (Instr.drw 0 0 0).wf = true := by decide

theorem witness_EncodeOfDecodeIsTheWord : decodeWord 0xDFFF = .ok (.drw 15 15 15) := rfl

theorem witness_WordsDecodeByTheOpcodeMap : ⟨0xF00F, 0x800E⟩ ∈ opcodeMap ∧ OpcodeRow.selects ⟨0xF00F, 0x800E⟩ 0x8F1E = true := by decide

theorem witness_UnlistedSubOpcodesOfFamilies8EFAreIllegal :
    (familyOf 0x8008 = 0x8#4 ∧ fieldN 0x8008 ∈ [0x8#4, 0x9#4, 0xA#4, 0xB#4, 0xC#4, 0xD#4, 0xF#4]) ∧
    (familyOf 0xE09F = 0xE#4 ∧ fieldKK 0xE09F ∉ [0x9E#8, 0xA1#8]) ∧
    (familyOf 0xF066 = 0xF#4 ∧ fieldKK 0xF066 ∉ [0x07#8, 0x0A#8, 0x15#8, 0x18#8, 0x1E#8, 0x29#8, 0x33#8, 0x55#8, 0x65#8]) := by
  decide

theorem witness_Families059CompareEveryFixedBit :
    (familyOf 0x00E1 = 0x0#4 ∧ (0x00E1#16 : Word) ≠ 0x00E0#16 ∧ (0x00E1#16 : Word) ≠ 0x00EE#16) ∧
    (familyOf 0x5001 = 0x5#4 ∧ fieldN 0x5001 ≠ 0x0#4) ∧ (familyOf 0x900F = 0x9#4 ∧ fieldN 0x900F ≠ 0x0#4) := by decide

/-- A machine about to run `LD V0, 0xEA`, with exactly one period in hand. -/
def ready : State := State.reset.withFetchWord 16 0x60EA

theorem ready_due : 1 / (ready.cfg.cpuFrequency : Rat) ≤ ready.cpuAccum :=
  (periodDue_iff (rate := ready.cfg.cpuFrequency) (by decide) ready.cpuAccum).mp (by decide)

theorem witness_StepRunsTheDecodedInstruction :
    1 ≤ ready.cfg.cpuFrequency ∧ ready.halted = none ∧ ready.phase = .cpuLoop ∧
    1 / (ready.cfg.cpuFrequency : Rat) ≤ ready.cpuAccum ∧ ready.pc.toNat ≤ 4094 ∧
    decode ready.fetchBytes = .ok (.ldByte 0 0xEA) := ⟨by decide, rfl, rfl, ready_due, by decide, by decide⟩

theorem witness_IllegalWordHaltsTheMachine :
    State.reset.pc.toNat ≤ 4094 ∧ (∀ r ∈ opcodeMap, r.selects State.reset.fetchWord = false) ∧
    1 ≤ State.reset.cfg.cpuFrequency := by decide

theorem witness_FetchPastTheMemoryFails : 4094 < (State.pc { State.reset with pc := 4095 }).toNat := by decide

theorem witness_HaltedMachineTakesNoStep :
    1 ≤ State.reset.cfg.cpuFrequency ∧ (State.reset.fail (.stackUnderflow 0x200)).halted = some (.stackUnderflow 0x200) := by decide

theorem witness_FailureLeavesTheStateAsItWas :
    State.reset.halted = none ∧ ∃ t, invoke State.reset = .next t ∧ t.halted ≠ none := ⟨rfl, _, rfl, by decide⟩

theorem witness_InvocationLeavesTheOtherAgentsAlone : ∃ t, invoke ready = .next t := ⟨_, rfl⟩

theorem witness_CallPushesItsOwnAddress :
    (withFrames 0).sp.val < 16 ∧ (withFrames 15).sp.val < 16 ∧ (withFrames 16).sp.val = 16 := by decide

theorem witness_RetResumesAfterTheCall :
    0 < (withFrames 1).sp.val ∧ 0 < (withFrames 16).sp.val ∧ (withFrames 0).sp.val = 0 := by decide

theorem witness_CallThenRetReturnsAfterTheCall :
    (withFrames 15).sp.val < 16 ∧ ∃ t, exec (.call 0xFFF) (withFrames 15) = .next t := ⟨by decide, _, rfl⟩

theorem witness_RegisterSkipsMovePcByTwoOrFour :
    (withV [(1, 7)]).readV 1 = 7 ∧ (withV [(1, 7)]).readV 1 ≠ 8 ∧ (withV [(1, 7), (2, 7)]).readV 1 = (withV [(1, 7), (2, 7)]).readV 2 ∧
    (withV [(1, 7)]).readV 1 ≠ (withV [(1, 7)]).readV 2 := by decide

theorem witness_FlagRegisterAsAnOperand : (0 : Reg) ≠ 15 ∧ (14 : Reg) ≠ 15 ∧ State.reset.cfg.shiftQuirk = true ∧
    (noQuirk State.reset).cfg.shiftQuirk = false := by decide

theorem witness_InstructionsWriteOnlyTheirRegisters :
    (∃ t, exec (.addReg 0 1) State.reset = .next t) ∧ isDestination (.addReg 0 1) 14 = false ∧
    ((14 : Reg) = 15 → writesFlag (.addReg 0 1) = false) ∧
    isDestination (.ldVxMem 14) 15 = false ∧ ((15 : Reg) = 15 → writesFlag (.ldVxMem 14) = false) :=
  ⟨⟨_, rfl⟩, by decide, by decide, by decide, by decide⟩

theorem witness_KeySkipsFollowTheKeypad :
    ((withV [(2, 15)]).readV 2).toNat ≤ 15 ∧ ((withV [(2, 0)]).readV 2).toNat ≤ 15 ∧ 15 < ((withV [(2, 16)]).readV 2).toNat := by decide

theorem witness_KeyWaitTakesTheLeastPressedKey :
    ((withKeys [15] State.reset).keypad[(15 : Key)] = true ∧ ∀ j : Key, j < 15 → (withKeys [15] State.reset).keypad[j] = false) ∧
    ((withKeys [0] State.reset).keypad[(0 : Key)] = true ∧ ∀ j : Key, j < 0 → (withKeys [0] State.reset).keypad[j] = false) ∧
    (∀ k : Key, State.reset.keypad[k] = false) := by decide

/-- A one-row sprite of eight pixels at 4095, the last byte of memory. -/
def topSprite : State := withI 4095 (withBytes 4095 [0xFF] State.reset)

theorem topSprite_hits : SpriteHits topSprite (topSprite.readV 0) (topSprite.readV 1) 1 0 0 :=
  ⟨0, 0, by decide, by decide, by decide, by decide, by decide⟩

theorem witness_DrwTogglesTheSpriteCells :
    1 ≤ 15 ∧ (1 ≤ 1 → topSprite.i.toNat + 1 - 1 ≤ 4095) ∧ (1 ≤ 15 → (withI 4081 State.reset).i.toNat + 15 - 1 ≤ 4095) ∧
    (∃ row col, SpriteHits topSprite (topSprite.readV 0) (topSprite.readV 1) 1 row col) ∧
    (∃ row col, SpriteHits (withCell 0 0 topSprite) ((withCell 0 0 topSprite).readV 0) ((withCell 0 0 topSprite).readV 1) 1 row col ∧
      (withCell 0 0 topSprite).fb.cell row col = true) :=
  ⟨by decide, by decide, by decide, ⟨0, 0, topSprite_hits⟩, 0, 0, topSprite_hits, by decide⟩

theorem witness_DrawingTwiceRestoresTheScreen :
    1 ≤ 15 ∧ (1 ≤ 1 → topSprite.i.toNat + 1 - 1 ≤ 4095) ∧ (0 : Reg) ≠ 15 ∧ (1 : Reg) ≠ 15 ∧
    (∃ t, exec (.drw 0 1 1) topSprite = .next t) ∧
    (∃ row col, SpriteHits topSprite (topSprite.readV 0) (topSprite.readV 1) 1 row col) ∧
    (∀ row col, SpriteHits topSprite (topSprite.readV 0) (topSprite.readV 1) 1 row col → topSprite.fb.cell row col = false) :=
  ⟨by decide, by decide, by decide, by decide, ⟨_, rfl⟩, ⟨0, 0, topSprite_hits⟩, fun row col _ => by
    simp [topSprite, withI, withBytes, State.writeBytes, State.reset, blankFramebuffer, Framebuffer.cell]⟩

theorem witness_DrawFlagMarksClsAndDrw :
    State.reset.halted = none ∧ (∃ t, invoke (State.reset.placeWordAtPc 0x00E0) = .next t ∧ t.drawFlag = true) ∧
    ∃ t, invoke State.reset = .next t ∧ t.drawFlag = false := ⟨rfl, ⟨_, rfl, rfl⟩, _, rfl, rfl⟩

/-- A memory with nothing listed is in canonical form. -/
theorem canonical_nil {s : State} (h : s.mem = []) : MemoryCanonical s := by
  rw [MemoryCanonical, h]; exact ⟨List.Pairwise.nil, fun _ hc => absurd hc List.not_mem_nil⟩

theorem witness_BcdStoresThreeDigits :
    MemoryCanonical (withI 80 State.reset) ∧ 80 ≤ (withI 80 State.reset).i.toNat ∧ (withI 80 State.reset).i.toNat + 2 ≤ 4095 ∧
    80 ≤ (withI 4093 State.reset).i.toNat ∧ (withI 4093 State.reset).i.toNat + 2 ≤ 4095 :=
  ⟨canonical_nil rfl, by decide⟩

theorem witness_StoreRegistersWritesTheBlock :
    MemoryCanonical (withI 80 State.reset) ∧ 80 ≤ (withI 80 State.reset).i.toNat ∧
    (withI 80 State.reset).i.toNat + (15 : Reg).val ≤ 4095 ∧ 80 ≤ (withI 4095 State.reset).i.toNat ∧
    (withI 4095 State.reset).i.toNat + (0 : Reg).val ≤ 4095 := ⟨canonical_nil rfl, by decide⟩

theorem witness_LoadRegistersReadsTheBlock :
    (withI 4095 State.reset).i.toNat + (0 : Reg).val ≤ 4095 ∧ (withI 4080 State.reset).i.toNat + (15 : Reg).val ≤ 4095 := by decide

theorem witness_DataAccessPastTheMemoryFails :
    1 ≤ 1 ∧ 4095 < (withI 4096 State.reset).i.toNat + 1 - 1 ∧ 4095 < (withI 4094 State.reset).i.toNat + 2 ∧
    4095 < (withI 4095 State.reset).i.toNat + (1 : Reg).val := by decide

theorem witness_StoreIntoTheFontFails : (withI 79 State.reset).i.toNat < 80 ∧ State.reset.i.toNat < 80 := by decide

/-- `LD [I], V1` at 0x206 with `I` at the next instruction's address, as in the program P6. -/
def selfModifying : State := { withI 0x208 (withV [(0, 0x12), (1, 0x0A)]) with pc := 0x206 }

theorem witness_StoredBytesAreFetchedAtOnce :
    MemoryCanonical selfModifying ∧ 80 ≤ selfModifying.i.toNat ∧ selfModifying.i.toNat + (1 : Reg).val ≤ 4095 ∧
    (1 : Reg).val = (0 : Reg).val + 1 ∧ (1 : Reg) ≤ 1 ∧ selfModifying.pc.toNat + 2 = selfModifying.i.toNat + (0 : Reg).val ∧
    ∃ t, exec (.ldMemVx 1) selfModifying = .next t :=
  ⟨canonical_nil rfl, by decide, by decide, by decide, by decide, by decide,
    _, rfl⟩

theorem witness_MemoriesThatReadAlikeAreEqual :
    Memory.wf customaryFont [(80, 1), (4095, 2)] ∧
    ∀ a : Nat, Memory.read customaryFont [(80, 1), (4095, 2)] a = Memory.read customaryFont [(80, 1), (4095, 2)] a :=
  ⟨by decide, fun _ => rfl⟩

/-- A machine in the timer loop of a call. -/
def inTimerLoop (accum : Time) : State := { State.reset with phase := .timerLoop 0, timerAccum := accum }

/-- A machine in the CPU loop of a call. -/
def inCpuLoop (pc : Word) : State := { State.reset with phase := .cpuLoop, pc := pc }

theorem inCpuLoop_not_due (pc : Word) : (inCpuLoop pc).cpuAccum < 1 / ((inCpuLoop pc).cfg.cpuFrequency : Rat) :=
  (periodDue_eq_false_iff (rate := 700) (by decide) 0).mp (by decide)

theorem witness_ComparatorsFireOnePeriodAtATime :
    1 ≤ State.reset.cfg.cpuFrequency ∧ State.reset.halted = none ∧ (inTimerLoop (1 / 60)).phase = .timerLoop 0 ∧
    1 / 60 ≤ (inTimerLoop (1 / 60)).timerAccum ∧ (inTimerLoop 0).timerAccum < 1 / 60 ∧ ready.phase = .cpuLoop ∧
    1 / (ready.cfg.cpuFrequency : Rat) ≤ ready.cpuAccum ∧ (inCpuLoop 4095).phase = .cpuLoop ∧
    (inCpuLoop 4095).cpuAccum < 1 / ((inCpuLoop 4095).cfg.cpuFrequency : Rat) ∧ (inCpuLoop 4095).pc.toNat ≤ 4095 :=
  ⟨by decide, rfl, rfl, le_refl _, by simp [inTimerLoop], rfl, ready_due, rfl, inCpuLoop_not_due 4095, by decide⟩

theorem witness_HostCheckHaltsPastTheMemory :
    1 ≤ (inCpuLoop 4096).cfg.cpuFrequency ∧ (inCpuLoop 4096).halted = none ∧ (inCpuLoop 4096).phase = .cpuLoop ∧
    (inCpuLoop 4096).cpuAccum < 1 / ((inCpuLoop 4096).cfg.cpuFrequency : Rat) ∧ 4095 < (inCpuLoop 4096).pc.toNat :=
  ⟨by decide, rfl, rfl, inCpuLoop_not_due 4096, by decide⟩

/-- A machine between calls whose host will do `h` next. -/
def hostWill (h : List HostInput) : State := { State.reset with inputs := h }

theorem witness_HostMovesHappenBetweenCalls :
    1 ≤ State.reset.cfg.cpuFrequency ∧ State.reset.halted = none ∧ State.reset.phase = .idle ∧
    ((hostWill [.advance 0]).inputs = .advance 0 :: [] ∧ (0 : Time) ≤ 0) ∧
    ((hostWill [.advance (-1)]).inputs = .advance (-1) :: [] ∧ (-1 : Time) < 0) ∧
    (hostWill [.setKeypad (Vector.replicate 16 true)]).inputs = .setKeypad (Vector.replicate 16 true) :: [] ∧
    (hostWill []).inputs = [] :=
  ⟨by decide, rfl, rfl, ⟨rfl, le_refl _⟩, ⟨rfl, by norm_num⟩, rfl, rfl⟩

theorem witness_KeypadChangesOnlyBetweenCalls :
    ∃ t, step (hostWill [.setKeypad (Vector.replicate 16 true)]) = .next t ∧ t.keypad ≠ State.reset.keypad :=
  ⟨_, rfl, by decide⟩

theorem witness_TimersChangeOnlyByTickOrLoad :
    (∃ t, step (State.withFetchWord (withV [(0, 60)]) 16 0xF015) = .next t ∧ t.dt ≠ 0) ∧
    (∃ t, step { inTimerLoop (period 60) with st := 1 } = .next t ∧ t.st ≠ 1) := ⟨⟨_, rfl, by decide⟩, _, rfl, by decide⟩

theorem witness_ConfigurationNeverChanges : ∃ t, step State.reset = .next t := ⟨_, rfl⟩

theorem witness_TimerLoopFiresFloorManyTicks : 0 ≤ (inTimerLoop 0).timerAccum ∧ 0 ≤ (inTimerLoop (1 / 60)).timerAccum :=
  ⟨le_refl _, by simp [inTimerLoop]⟩

theorem witness_StepsOfACallReachTheWholeCall :
    1 ≤ (hostWill [.advance (1 / 60)]).cfg.cpuFrequency ∧ (hostWill [.advance (1 / 60)]).halted = none ∧
    (hostWill [.advance (1 / 60)]).phase = .idle ∧ (hostWill [.advance (1 / 60)]).inputs = .advance (1 / 60) :: [] ∧
    (0 : Time) ≤ 1 / 60 := ⟨by decide, rfl, rfl, rfl, by norm_num⟩

theorem reset_canonical : MemoryCanonical State.reset := canonical_nil rfl

theorem reset_font : FontIntact State.reset := fun _ h => constructedByte_font h

theorem witness_FontAndMemoryFormAreKept :
    MemoryCanonical State.reset ∧ FontIntact State.reset ∧ ∃ t, step State.reset = .next t := ⟨reset_canonical, reset_font, _, rfl⟩

theorem reset_pcBounded : PcBounded State.reset := ⟨by decide, fun _ h => absurd h (Nat.not_lt_zero _)⟩

theorem witness_PcAndReturnAddressesStayBounded : PcBounded State.reset ∧ ∃ t, step State.reset = .next t := ⟨reset_pcBounded, _, rfl⟩

theorem witness_AccumulatorsStayInRange : ClocksInRange State.reset ∧ ∃ t, step State.reset = .next t :=
  ⟨by simp [ClocksInRange, State.reset, defaultConfig], _, rfl⟩

theorem construct_default_empty : construct defaultConfig [] = .next State.reset := rfl

theorem witness_ReachableStatesAreSafe : Reachable (hostWill [.advance (1 / 60)]) := Reachable.constructed construct_default_empty

end Sys2Proof.Tests
end

section
/-! 20_memory.md: what a fetch reads (R50). -/

namespace Sys2Proof.Machine

/-- R50 for the word: the byte at the lower address is the high one. -/
theorem State.fetchWord_toNat (s : State) :
    s.fetchWord.toNat = (s.readByte s.pc.toNat).toNat * 256 + (s.readByte (s.pc.toNat + 1)).toNat :=
  wordOf_toNat _ _

/-- The decoder joins the two fetched bytes in the order in which `State.fetchWord` joins them. -/
theorem State.decode_fetchBytes (s : State) : decode s.fetchBytes = decodeWord s.fetchWord := rfl

/-- Settles O10: the fetched word is the big-endian value of its two bytes, and the decoder sees that word. -/
theorem fetchIsBigEndian : Obligations.FetchIsBigEndian :=
  fun s => ⟨s.fetchWord_toNat, s.decode_fetchBytes⟩

end Sys2Proof.Machine
end

section
/-! 30_encoding.md: which words decode, on which row of the opcode map, and what an illegal word does (R79, R80, R85 to R87). -/

namespace Sys2Proof

variable {w v : Word} {i : Instr} {r : OpcodeRow} {f n : Nat}

/-! ### The top nibble chooses the family's decoder (R79) -/

theorem decodeWord_family0 (h : (familyOf w).toNat = 0x0) : decodeWord w = decodeFamily0 w := by
  simp only [decodeWord, h]

theorem decodeWord_family5 (h : (familyOf w).toNat = 0x5) : decodeWord w = decodeFamily5 w := by
  simp only [decodeWord, h]

theorem decodeWord_family8 (h : (familyOf w).toNat = 0x8) : decodeWord w = decodeFamily8 w := by
  simp only [decodeWord, h]

theorem decodeWord_family9 (h : (familyOf w).toNat = 0x9) : decodeWord w = decodeFamily9 w := by
  simp only [decodeWord, h]

theorem decodeWord_familyE (h : (familyOf w).toNat = 0xE) : decodeWord w = decodeFamilyE w := by
  simp only [decodeWord, h]

theorem decodeWord_familyF (h : (familyOf w).toNat = 0xF) : decodeWord w = decodeFamilyF w := by
  simp only [decodeWord, h]

/-! ### What a row compares, as fields of the word (R80) -/

theorem selects_F000_of_family (hf : (familyOf w).toNat = f) (hv : v.toNat = f * 4096) :
    OpcodeRow.selects ⟨0xF000, v⟩ w = true := by
  rw [familyOf_toNat] at hf
  exact Laws.RowMatch.selects_F000 (by omega)

theorem selects_F00F_of_fields (hf : (familyOf w).toNat = f) (hn : (fieldN w).toNat = n) (hv : v.toNat = f * 4096 + n) :
    OpcodeRow.selects ⟨0xF00F, v⟩ w = true := by
  rw [familyOf_toNat] at hf
  rw [fieldN_toNat] at hn
  exact Laws.RowMatch.selects_F00F (by omega)

theorem selects_F0FF_of_fields (hf : (familyOf w).toNat = f) (hn : (fieldKK w).toNat = n) (hv : v.toNat = f * 4096 + n) :
    OpcodeRow.selects ⟨0xF0FF, v⟩ w = true := by
  rw [familyOf_toNat] at hf
  rw [fieldKK_toNat] at hn
  exact Laws.RowMatch.selects_F0FF (by omega)

theorem family_of_selects_F000 (h : OpcodeRow.selects ⟨0xF000, v⟩ w = true) : (familyOf w).toNat = (familyOf v).toNat := by
  have hv : w.toNat / 4096 * 4096 = v.toNat := (and_mask_F000 w).symm.trans ((OpcodeRow.selects_iff _ w).mp h)
  simp only [familyOf_toNat]; omega

theorem fields_of_selects_F00F (h : OpcodeRow.selects ⟨0xF00F, v⟩ w = true) :
    (familyOf w).toNat = (familyOf v).toNat ∧ (fieldN w).toNat = (fieldN v).toNat := by
  have hv : w.toNat / 4096 * 4096 + w.toNat % 16 = v.toNat := (and_mask_F00F w).symm.trans ((OpcodeRow.selects_iff _ w).mp h)
  simp only [familyOf_toNat, fieldN_toNat]; omega

theorem fields_of_selects_F0FF (h : OpcodeRow.selects ⟨0xF0FF, v⟩ w = true) :
    (familyOf w).toNat = (familyOf v).toNat ∧ (fieldKK w).toNat = (fieldKK v).toNat := by
  have hv : w.toNat / 4096 * 4096 + w.toNat % 256 = v.toNat := (and_mask_F0FF w).symm.trans ((OpcodeRow.selects_iff _ w).mp h)
  simp only [familyOf_toNat, fieldKK_toNat]; omega

theorem selects_FFFF_iff : OpcodeRow.selects ⟨0xFFFF, v⟩ w = true ↔ w = v := by
  have hall : w &&& 0xFFFF#16 = w := BitVec.and_allOnes
  rw [OpcodeRow.selects_iff, BitVec.toNat_inj]
  exact ⟨hall.symm.trans, hall.trans⟩

/-! ### A decoded word is selected by its instruction's row -/

theorem rowOf_mem_opcodeMap (i : Instr) : rowOf i ∈ opcodeMap := by
  cases i <;> rw [rowOf] <;> decide

theorem selects_of_decodeFamily0 (h : decodeFamily0 w = .ok i) : (rowOf i).selects w = true := by
  unfold decodeFamily0 at h
  split at h <;> cases h <;> exact selects_FFFF_iff.mpr (BitVec.eq_of_toNat_eq ‹_›)

theorem selects_of_decodeFamily5 (hf : (familyOf w).toNat = 0x5) (h : decodeFamily5 w = .ok i) :
    (rowOf i).selects w = true := by
  unfold decodeFamily5 at h
  split at h <;> cases h
  exact selects_F00F_of_fields hf ‹_› rfl

theorem selects_of_decodeFamily8 (hf : (familyOf w).toNat = 0x8) (h : decodeFamily8 w = .ok i) :
    (rowOf i).selects w = true := by
  unfold decodeFamily8 at h
  split at h <;> cases h <;> exact selects_F00F_of_fields hf ‹_› rfl

theorem selects_of_decodeFamily9 (hf : (familyOf w).toNat = 0x9) (h : decodeFamily9 w = .ok i) :
    (rowOf i).selects w = true := by
  unfold decodeFamily9 at h
  split at h <;> cases h
  exact selects_F00F_of_fields hf ‹_› rfl

theorem selects_of_decodeFamilyE (hf : (familyOf w).toNat = 0xE) (h : decodeFamilyE w = .ok i) :
    (rowOf i).selects w = true := by
  unfold decodeFamilyE at h
  split at h <;> cases h <;> exact selects_F0FF_of_fields hf ‹_› rfl

theorem selects_of_decodeFamilyF (hf : (familyOf w).toNat = 0xF) (h : decodeFamilyF w = .ok i) :
    (rowOf i).selects w = true := by
  unfold decodeFamilyF at h
  split at h <;> cases h <;> exact selects_F0FF_of_fields hf ‹_› rfl

/-- A word decodes to an instruction on a row that selects it (R80). -/
theorem selects_of_decodeWord (h : decodeWord w = .ok i) : (rowOf i).selects w = true := by
  unfold decodeWord at h
  split at h
  case h_1 hf => exact selects_of_decodeFamily0 h
  case h_6 hf => exact selects_of_decodeFamily5 hf h
  case h_9 hf => exact selects_of_decodeFamily8 hf h
  case h_10 hf => exact selects_of_decodeFamily9 hf h
  case h_15 hf => exact selects_of_decodeFamilyE hf h
  case h_16 hf => exact selects_of_decodeFamilyF hf h
  all_goals cases h <;> exact selects_F000_of_family ‹_› rfl

/-- A word that no row selects is illegal (R80, R85). -/
theorem decodeWord_error_of_not_selects (h : ∀ r ∈ opcodeMap, r.selects w = false) : ∃ e, decodeWord w = .error e := by
  cases hd : decodeWord w with
  | error e => exact ⟨e, rfl⟩
  | ok i => exact absurd (selects_of_decodeWord hd) (by simp [h _ (rowOf_mem_opcodeMap i)])

/-! ### A selected word decodes on the row that selects it

The decoder finds a word's row from the bits under that row's mask alone, so a word decodes on the row on which the row's
value does. -/

/-- The row of the opcode map on which a word decodes. -/
def decodedRow (w : Word) : Except DecodeError OpcodeRow := (decodeWord w).map rowOf

theorem decodedRow_eq_ok_iff : decodedRow w = .ok r ↔ ∃ i, decodeWord w = .ok i ∧ rowOf i = r := by
  cases h : decodeWord w <;> simp [decodedRow, h, Except.map]

/-- Each row's value decodes on that row. -/
theorem decodedRow_value : ∀ r ∈ opcodeMap, decodedRow r.value = .ok r := by decide

/-- The families in which a row of each mask stands. -/
theorem opcodeMap_masks : ∀ r ∈ opcodeMap, r.mask = 0xFFFF ∨
    (r.mask = 0xF000 ∧ (familyOf r.value).toNat ∈ [0x1, 0x2, 0x3, 0x4, 0x6, 0x7, 0xA, 0xB, 0xC, 0xD]) ∨
    (r.mask = 0xF00F ∧ (familyOf r.value).toNat ∈ [0x5, 0x8, 0x9]) ∨
    (r.mask = 0xF0FF ∧ (familyOf r.value).toNat ∈ [0xE, 0xF]) := by decide

theorem decodedRow_congr_family (hf : (familyOf w).toNat = (familyOf v).toNat)
    (h : (familyOf v).toNat ∈ [0x1, 0x2, 0x3, 0x4, 0x6, 0x7, 0xA, 0xB, 0xC, 0xD]) : decodedRow w = decodedRow v := by
  simp only [List.mem_cons, List.not_mem_nil, or_false] at h
  rcases h with h | h | h | h | h | h | h | h | h | h <;> simp only [decodedRow, decodeWord, hf, h] <;> rfl

theorem decodedRow_congr_lowNibble (hf : (familyOf w).toNat = (familyOf v).toNat) (hn : (fieldN w).toNat = (fieldN v).toNat)
    (h : (familyOf v).toNat ∈ [0x5, 0x8, 0x9]) : decodedRow w = decodedRow v := by
  simp only [List.mem_cons, List.not_mem_nil, or_false] at h
  rcases h with h | h | h
  · simp only [decodedRow, decodeWord_family5 h, decodeWord_family5 (hf.trans h), decodeFamily5, hn]; split <;> rfl
  · simp only [decodedRow, decodeWord_family8 h, decodeWord_family8 (hf.trans h), decodeFamily8, hn]; split <;> rfl
  · simp only [decodedRow, decodeWord_family9 h, decodeWord_family9 (hf.trans h), decodeFamily9, hn]; split <;> rfl

theorem decodedRow_congr_lowByte (hf : (familyOf w).toNat = (familyOf v).toNat) (hk : (fieldKK w).toNat = (fieldKK v).toNat)
    (h : (familyOf v).toNat ∈ [0xE, 0xF]) : decodedRow w = decodedRow v := by
  simp only [List.mem_cons, List.not_mem_nil, or_false] at h
  rcases h with h | h
  · simp only [decodedRow, decodeWord_familyE h, decodeWord_familyE (hf.trans h), decodeFamilyE, hk]; split <;> rfl
  · simp only [decodedRow, decodeWord_familyF h, decodeWord_familyF (hf.trans h), decodeFamilyF, hk]; split <;> rfl

/-- A word that a row selects decodes on that row (R80). -/
theorem decodedRow_of_selects (hr : r ∈ opcodeMap) (hs : r.selects w = true) : decodedRow w = .ok r := by
  suffices h : decodedRow w = decodedRow r.value from h.trans (decodedRow_value r hr)
  have hmask := opcodeMap_masks r hr
  obtain ⟨mask, value⟩ := r
  rcases hmask with rfl | ⟨rfl, hfam⟩ | ⟨rfl, hfam⟩ | ⟨rfl, hfam⟩
  · rw [selects_FFFF_iff.mp hs]
  · exact decodedRow_congr_family (family_of_selects_F000 hs) hfam
  · obtain ⟨hf, hn⟩ := fields_of_selects_F00F hs
    exact decodedRow_congr_lowNibble hf hn hfam
  · obtain ⟨hf, hk⟩ := fields_of_selects_F0FF hs
    exact decodedRow_congr_lowByte hf hk hfam

/-- Settles O6: the decoder follows the opcode map both ways, and two rows that select one word are the row it decodes on. -/
theorem wordsDecodeByTheOpcodeMap : Obligations.WordsDecodeByTheOpcodeMap := by
  refine ⟨fun w i h => ⟨rowOf_mem_opcodeMap i, selects_of_decodeWord h⟩,
    fun w r hr hs => decodedRow_eq_ok_iff.mp (decodedRow_of_selects hr hs), fun w r r' hr hr' hs hs' => ?_⟩
  exact Except.ok.inj ((decodedRow_of_selects hr hs).symm.trans (decodedRow_of_selects hr' hs'))

/-! ### The illegal words of families 8, E and F (R86, R87) -/

theorem decodeFamily8_of_unlisted (h : fieldN w ∈ [0x8#4, 0x9#4, 0xA#4, 0xB#4, 0xC#4, 0xD#4, 0xF#4]) :
    decodeFamily8 w = .error .family8LowNibble := by
  simp only [List.mem_cons, List.not_mem_nil, or_false] at h
  rcases h with h | h | h | h | h | h | h <;> rw [decodeFamily8, h] <;> rfl

theorem decodeFamilyE_of_unlisted (h : fieldKK w ∉ [0x9E#8, 0xA1#8]) : decodeFamilyE w = .error .familyELowByte := by
  simp only [List.mem_cons, List.not_mem_nil, or_false, not_or, ← BitVec.toNat_inj, BitVec.reduceToNat] at h
  unfold decodeFamilyE
  split
  case h_3 => rfl
  all_goals omega

theorem decodeFamilyF_of_unlisted
    (h : fieldKK w ∉ [0x07#8, 0x0A#8, 0x15#8, 0x18#8, 0x1E#8, 0x29#8, 0x33#8, 0x55#8, 0x65#8]) :
    decodeFamilyF w = .error .familyFLowByte := by
  simp only [List.mem_cons, List.not_mem_nil, or_false, not_or, ← BitVec.toNat_inj, BitVec.reduceToNat] at h
  unfold decodeFamilyF
  split
  case h_10 => rfl
  all_goals omega

/-- Settles O7: the family's decoder is chosen by the top nibble and rejects every sub-opcode it does not list. -/
theorem unlistedSubOpcodesOfFamilies8EFAreIllegal : Obligations.UnlistedSubOpcodesOfFamilies8EFAreIllegal := fun _ =>
  ⟨fun hf hn => (decodeWord_family8 (congrArg BitVec.toNat hf)).trans (decodeFamily8_of_unlisted hn),
    fun hf hk => (decodeWord_familyE (congrArg BitVec.toNat hf)).trans (decodeFamilyE_of_unlisted hk),
    fun hf hk => (decodeWord_familyF (congrArg BitVec.toNat hf)).trans (decodeFamilyF_of_unlisted hk)⟩

end Sys2Proof

namespace Sys2Proof.Machine

/-! ### An illegal word halts the machine (R85) -/

/-- A halted machine faults with the failure that halted it (R206). -/
theorem step_halted {s : State} {f : Failure} (hf : s.cfg.wf = true) (hh : s.halted = some f) :
    step s = .fault (.halted f) := by
  rw [step, schedule, if_pos hf]; simp only [hh]

/-- An invocation whose word does not decode fails with the word and its address (R85, R201). -/
theorem invoke_of_decode_error {s : State} {e : DecodeError} (hpc : s.pc.toNat ≤ 4094) (he : decodeWord s.fetchWord = .error e) :
    invoke s = .next (s.fail (.decodeFailure s.fetchWord s.pc)) := by
  rcases invoke_cases s with ⟨hgt, -⟩ | ⟨-, -, h⟩ | ⟨i, -, hi, -⟩
  · omega
  · exact h
  · rw [s.decode_fetchBytes, he] at hi; cases hi

/-- Settles O12: the word does not decode, so the invocation fails, and the halted machine takes no step. -/
theorem illegalWordHaltsTheMachine : Obligations.IllegalWordHaltsTheMachine := by
  intro s hpc hrows
  obtain ⟨e, he⟩ := decodeWord_error_of_not_selects hrows
  exact ⟨s.fail (.decodeFailure s.fetchWord s.pc), invoke_of_decode_error hpc he, rfl,
    fun hfreq => step_halted (decide_eq_true hfreq) rfl⟩

end Sys2Proof.Machine
end

section
/-! 40_family0_2_flow.md: clear, jump and call (R100, R102, R103). -/

namespace Sys2Proof.Machine

/-! ### Each instruction's next state, in one equation -/

theorem exec_cls (s : State) : exec .cls s = .next { s with fb := blankFramebuffer, drawFlag := true, pc := s.pc + 2 } := rfl

theorem exec_jp (nnn : Addr12) (s : State) : exec (.jp nnn) s = .next { s with pc := addrWord nnn } := rfl

/-- With 16 frames in use there is nothing to push to, so `CALL` fails (R103). -/
theorem exec_call_overflow (nnn : Addr12) {s : State} (h : s.sp.val = 16) :
    exec (.call nnn) s = .next (s.fail (.stackOverflow s.pc)) := by
  rcases s.pushPc?_eq with ⟨hlt, -⟩ | ⟨-, hnone⟩
  · omega
  · rw [exec, execCall, hnone]; rfl

/-- Settles O17: the blank framebuffer has no cell set, and the equation of `CLS` names all that changes. -/
theorem clsClearsTheScreen : Obligations.ClsClearsTheScreen := fun s =>
  ⟨_, exec_cls s, blankFramebuffer_cell, rfl, rfl, rfl, sameMemory_of_eq rfl rfl⟩

/-- Settles O18: the word of a 12-bit address has the address's value. -/
theorem jpLoadsPc : Obligations.JpLoadsPc := fun nnn s =>
  ⟨_, exec_jp nnn s, addrWord_toNat nnn, rfl, sameMemory_of_eq rfl rfl⟩

/-- Settles O19: with a free entry the push writes the entry at `SP` alone; with none the call fails. -/
theorem callPushesItsOwnAddress : Obligations.CallPushesItsOwnAddress := by
  refine fun nnn s => ⟨fun h => ⟨_, exec_call_push nnn h, ?pushed, rfl, addrWord_toNat nnn, fun k hk => ?others, rfl,
    sameMemory_of_eq rfl rfl⟩, exec_call_overflow nnn⟩
  case pushed => exact Vector.getElem_set_self h
  case others => exact Vector.getElem_set_ne h k.isLt hk.symm

end Sys2Proof.Machine
end

section
/-! 41_family3_4_5_9_skip.md: the four skips on registers (R110 to R113). -/

namespace Sys2Proof.Machine

/-! ### A skip in general -/

theorem State.skipIf_changesOnlyPc (s : State) (c : Bool) : ChangesOnlyPc s (s.skipIf c) :=
  ⟨rfl, sameMemory_of_eq rfl rfl⟩

/-- An instruction that is a skip on `c` moves `PC` by 4 when `p` makes `c` true and by 2 when `q` makes it false. -/
theorem skip_of_exec_eq {i : Instr} {s : State} {c : Bool} {p q : Prop} (hexec : exec i s = .next (s.skipIf c))
    (htaken : p → c = true) (hnot : q → c = false) :
    ∃ t, exec i s = .next t ∧ (p → t.pc = s.pc + 4) ∧ (q → t.pc = s.pc + 2) ∧ ChangesOnlyPc s t :=
  ⟨_, hexec, fun hp => by simp [htaken hp], fun hq => by simp [hnot hq], s.skipIf_changesOnlyPc c⟩

/-! ### The condition of each skip -/

theorem exec_seByte (x : Reg) (kk : Byte) (s : State) : exec (.seByte x kk) s = .next (s.skipIf (s.readV x == kk)) := rfl

theorem exec_sneByte (x : Reg) (kk : Byte) (s : State) : exec (.sneByte x kk) s = .next (s.skipIf (s.readV x != kk)) := rfl

theorem exec_seReg (x y : Reg) (s : State) : exec (.seReg x y) s = .next (s.skipIf (s.readV x == s.readV y)) := rfl

theorem exec_sneReg (x y : Reg) (s : State) : exec (.sneReg x y) s = .next (s.skipIf (s.readV x != s.readV y)) := rfl

/-- Settles O23: each of the four is a skip, on equality for `SE` and on inequality for `SNE`. -/
theorem registerSkipsMovePcByTwoOrFour : Obligations.RegisterSkipsMovePcByTwoOrFour := fun x y kk s =>
  ⟨skip_of_exec_eq (exec_seByte x kk s) beq_iff_eq.mpr beq_eq_false_iff_ne.mpr,
    skip_of_exec_eq (exec_sneByte x kk s) bne_iff_ne.mpr bne_eq_false_iff_eq.mpr,
    skip_of_exec_eq (exec_seReg x y s) beq_iff_eq.mpr beq_eq_false_iff_ne.mpr,
    skip_of_exec_eq (exec_sneReg x y s) bne_iff_ne.mpr bne_eq_false_iff_eq.mpr⟩

end Sys2Proof.Machine
end

section
/-! 42_family6_7_immediate.md: load immediate and add immediate (R120, R121). -/

namespace Sys2Proof.Machine

/-! ### An instruction that writes one register -/

theorem State.writeV_advance_changesOnlyRegisters (s : State) (x : Reg) (b : Byte) :
    ChangesOnlyRegisters s (s.writeV x b).advance [x] :=
  ⟨rfl, sameRegistersBut_writeV s x b, sameMemory_of_eq rfl rfl⟩

/-- An instruction that writes `b` to `V[x]` and advances: whatever holds of `b` holds of `V[x]`, and no other register, the flag
included, changes. -/
theorem writes_of_exec_eq {i : Instr} {s : State} {x : Reg} {b : Byte} {p : Byte → Prop}
    (hexec : exec i s = .next (s.writeV x b).advance) (hb : p b) :
    ∃ t, exec i s = .next t ∧ p (t.readV x) ∧ t.pc = s.pc + 2 ∧ ChangesOnlyRegisters s t [x] :=
  ⟨_, hexec, by simpa using hb, rfl, s.writeV_advance_changesOnlyRegisters x b⟩

/-! ### The byte each of the two writes -/

theorem exec_ldByte (x : Reg) (kk : Byte) (s : State) : exec (.ldByte x kk) s = .next (s.writeV x kk).advance := rfl

theorem exec_addByte (x : Reg) (kk : Byte) (s : State) :
    exec (.addByte x kk) s = .next (s.writeV x (s.readV x + kk)).advance := rfl

/-- Settles O24: both write `V[x]` alone, one the byte `kk`, the other the 8-bit sum, which is the sum modulo 256. -/
theorem immediateLoadAndAdd : Obligations.ImmediateLoadAndAdd := fun x kk s =>
  ⟨writes_of_exec_eq (p := (· = kk)) (exec_ldByte x kk s) rfl,
    writes_of_exec_eq (p := fun b => b.toNat = ((s.readV x).toNat + kk.toNat) % 256) (exec_addByte x kk s)
      (BitVec.toNat_add _ _)⟩

end Sys2Proof.Machine
end

section
/-! 43_family8_alu.md: copy, OR, AND and XOR (R126 to R129). -/

namespace Sys2Proof.Machine

/-! ### The byte each of the four writes -/

theorem exec_ldReg (x y : Reg) (s : State) : exec (.ldReg x y) s = .next (s.writeV x (s.readV y)).advance := rfl

theorem exec_orReg (x y : Reg) (s : State) :
    exec (.orReg x y) s = .next (s.writeV x (s.readV x ||| s.readV y)).advance := rfl

theorem exec_andReg (x y : Reg) (s : State) :
    exec (.andReg x y) s = .next (s.writeV x (s.readV x &&& s.readV y)).advance := rfl

theorem exec_xorReg (x y : Reg) (s : State) :
    exec (.xorReg x y) s = .next (s.writeV x (s.readV x ^^^ s.readV y)).advance := rfl

/-- An instruction that writes to `V[x]` the byte whose every bit is `op` of the bits of `V[x]` and `V[y]`, read before the write. -/
theorem bitwise_of_exec_eq (op : Bool → Bool → Bool) {i : Instr} {s : State} {x y : Reg} {r : Byte}
    (hexec : exec i s = .next (s.writeV x r).advance)
    (hr : ∀ b < 8, r.getLsbD b = op ((s.readV x).getLsbD b) ((s.readV y).getLsbD b)) :
    ∃ t, exec i s = .next t ∧
      (∀ b < 8, (t.readV x).getLsbD b = op ((s.readV x).getLsbD b) ((s.readV y).getLsbD b)) ∧ t.pc = s.pc + 2 ∧
      ChangesOnlyRegisters s t [x] :=
  writes_of_exec_eq (p := fun v => ∀ b < 8, v.getLsbD b = op ((s.readV x).getLsbD b) ((s.readV y).getLsbD b)) hexec hr

/-- Settles O25: each of the four writes `V[x]` alone, the copy the byte `V[y]`, the others the bitwise operation's byte. -/
theorem copyAndBitwiseWriteOnlyTheDestination : Obligations.CopyAndBitwiseWriteOnlyTheDestination := fun x y s =>
  ⟨writes_of_exec_eq (p := (· = s.readV y)) (exec_ldReg x y s) rfl,
    bitwise_of_exec_eq or (exec_orReg x y s) fun _ _ => BitVec.getLsbD_or,
    bitwise_of_exec_eq and (exec_andReg x y s) fun _ _ => BitVec.getLsbD_and,
    bitwise_of_exec_eq xor (exec_xorReg x y s) fun _ _ => BitVec.getLsbD_xor⟩

end Sys2Proof.Machine
end

section
/-! 44_familyA_B_C.md: load index and jump with offset (R140, R141). -/

namespace Sys2Proof.Machine

/-! ### The next state of each of the two -/

theorem exec_ldI (nnn : Addr12) (s : State) : exec (.ldI nnn) s = .next { s with i := addrWord nnn, pc := s.pc + 2 } := rfl

theorem exec_jpV0 (nnn : Addr12) (s : State) :
    exec (.jpV0 nnn) s = .next { s with pc := byteWord (s.readV 0) + addrWord nnn } := rfl

/-- A byte and a 12-bit address add up to at most 255 + 4095 = 4350, so their words' 16-bit sum does not wrap (R141). -/
theorem byteWord_add_addrWord_toNat (b : Byte) (nnn : Addr12) :
    (byteWord b + addrWord nnn).toNat = b.toNat + nnn.toNat := by
  have hbound : (byteWord b).toNat + (addrWord nnn).toNat < 2 ^ 16 := by
    rw [byteWord_toNat, addrWord_toNat]; omega
  rw [BitVec.toNat_add_of_lt hbound, byteWord_toNat, addrWord_toNat]

/-- Settles O22: the 16-bit sum of `V[0]` and `nnn` is their sum as numbers, and the jump writes `PC` alone. -/
theorem jpV0AddsTheOffset : Obligations.JpV0AddsTheOffset := fun nnn s =>
  ⟨_, exec_jpV0 nnn s, byteWord_add_addrWord_toNat (s.readV 0) nnn, rfl, sameMemory_of_eq rfl rfl⟩

/-- Settles O31: the word of a 12-bit address has the address's value, and the load writes `I` and `PC` alone. -/
theorem ldILoadsTheAddress : Obligations.LdILoadsTheAddress := fun nnn s =>
  ⟨_, exec_ldI nnn s, addrWord_toNat nnn, rfl, rfl, sameMemory_of_eq rfl rfl⟩

end Sys2Proof.Machine
end

section
/-! 47_familyF_misc.md, 46_familyE_keypad.md: the timer moves and the key wait (R157 to R160). -/

namespace Sys2Proof.Machine

/-! ### The next state of each timer move -/

theorem exec_ldVxDt (x : Reg) (s : State) : exec (.ldVxDt x) s = .next (s.writeV x s.dt).advance := rfl

theorem exec_ldDtVx (x : Reg) (s : State) : exec (.ldDtVx x) s = .next { s with dt := s.readV x, pc := s.pc + 2 } := rfl

theorem exec_ldStVx (x : Reg) (s : State) : exec (.ldStVx x) s = .next { s with st := s.readV x, pc := s.pc + 2 } := rfl

/-- Settles O34: the move from the delay timer writes `V[x]` alone, and each move to a timer writes that timer alone. -/
theorem timerMoves : Obligations.TimerMoves := fun x s =>
  ⟨writes_of_exec_eq (p := (· = s.dt)) (exec_ldVxDt x s) rfl,
    ⟨_, exec_ldDtVx x s, rfl, rfl, rfl, sameMemory_of_eq rfl rfl⟩,
    ⟨_, exec_ldStVx x s, rfl, rfl, rfl, sameMemory_of_eq rfl rfl⟩⟩

/-! ### The two outcomes of the key wait -/

theorem exec_ldVxK_of_pressed (x : Reg) {s : State} {k : Key} (h : s.lowestPressed? = some k) :
    exec (.ldVxK x) s = .next (s.writeV x (BitVec.ofNat 8 k.val)).advance := by
  rw [exec, execLdVxK, h]

theorem exec_ldVxK_of_none (x : Reg) {s : State} (h : s.lowestPressed? = none) : exec (.ldVxK x) s = .next s := by
  rw [exec, execLdVxK, h]

/-- A key's index fits in a byte. -/
theorem keyByte_toNat (k : Key) : (BitVec.ofNat 8 k.val).toNat = k.val :=
  (BitVec.toNat_ofNat _ _).trans (Nat.mod_eq_of_lt (by omega))

/-- Settles O36: a pressed key with none below it is the one the scan finds, and its index is written to `V[x]` alone; with no
key pressed the scan finds none. -/
theorem keyWaitTakesTheLeastPressedKey : Obligations.KeyWaitTakesTheLeastPressedKey := fun x _ =>
  ⟨fun k hk hmin => writes_of_exec_eq (p := fun b => b.toNat = k.val)
      (exec_ldVxK_of_pressed x (State.lowestPressed?_eq_some hk hmin)) (keyByte_toNat k),
    fun hnone => exec_ldVxK_of_none x (State.lowestPressed?_eq_none hnone)⟩

end Sys2Proof.Machine
end

section
/-! 49_scheduler_timers.md: the timer tick and one pass of each loop (R182, R184, R185). -/

namespace Sys2Proof.Machine

/-- Settles O47: each timer counts down to a floor of 0, and the tick's equation names the two timers alone. -/
theorem timerTickFloorsAtZero : Obligations.TimerTickFloorsAtZero := fun s =>
  ⟨countDown_toNat s.dt, countDown_toNat s.st, rfl, sameMemory_of_eq rfl rfl⟩

/-! ### A pass of the timer loop -/

/-- The Timer Unit's period is 1/60 of a second (R8). -/
theorem period_timerRate : period timerRate = 1 / 60 := period_eq (by decide)

theorem periodDue_timerRate_iff (accum : Time) : periodDue timerRate accum = true ↔ 1 / 60 ≤ accum :=
  periodDue_iff (by decide) accum

theorem timerLoopPass_of_due (elapsed : Time) {s : State} (h : 1 / 60 ≤ s.timerAccum) :
    timerLoopPass elapsed s = .next (timerTick { s with timerAccum := s.timerAccum - 1 / 60 }) := by
  rw [timerLoopPass, if_pos ((periodDue_timerRate_iff _).mpr h), period_timerRate]

theorem timerLoopPass_of_not_due (elapsed : Time) {s : State} (h : s.timerAccum < 1 / 60) :
    timerLoopPass elapsed s = .next { s with cpuAccum := s.cpuAccum + elapsed, phase := .cpuLoop } := by
  rw [timerLoopPass, if_neg (mt (periodDue_timerRate_iff _).mp (not_le.mpr h))]

/-! ### A pass of the CPU loop -/

theorem cpuLoopPass_of_due {s : State} (hfreq : 0 < s.cfg.cpuFrequency)
    (h : 1 / (s.cfg.cpuFrequency : Rat) ≤ s.cpuAccum) :
    cpuLoopPass s = invoke { s with cpuAccum := s.cpuAccum - 1 / (s.cfg.cpuFrequency : Rat) } := by
  rw [cpuLoopPass, if_pos ((periodDue_iff hfreq _).mpr h), period_eq hfreq]

theorem cpuLoopPass_of_not_due {s : State} (hfreq : 0 < s.cfg.cpuFrequency)
    (h : s.cpuAccum < 1 / (s.cfg.cpuFrequency : Rat)) : cpuLoopPass s = .next (endCall s) := by
  rw [cpuLoopPass, if_neg (mt (periodDue_iff hfreq _).mp (not_le.mpr h))]

/-- The host's check finds nothing while `PC` is in memory (R204 a). -/
theorem endCall_of_pc_le {s : State} (h : s.pc.toNat ≤ 4095) : endCall s = { s with phase := .idle } := by
  rw [endCall, if_neg (not_lt.mpr h)]

/-- Settles O48: a step inside a call is one pass of its loop, and the pass turns on that loop's comparator. -/
theorem comparatorsFireOnePeriodAtATime : Obligations.ComparatorsFireOnePeriodAtATime := by
  intro s hfreq hhalted
  have hwf : s.cfg.wf = true := decide_eq_true hfreq
  refine ⟨fun elapsed hphase => ?timer, fun hphase => ?cpu⟩
  case timer =>
    rw [step_timerLoop hwf hhalted hphase]
    exact ⟨timerLoopPass_of_due elapsed, timerLoopPass_of_not_due elapsed⟩
  case cpu =>
    rw [step_cpuLoop hwf hhalted hphase]
    refine ⟨cpuLoopPass_of_due hfreq, fun hnot hpc => ?_⟩
    rw [cpuLoopPass_of_not_due hfreq hnot, endCall_of_pc_le hpc]

end Sys2Proof.Machine
end

section
/-! 30_encoding.md: decoding and encoding undo each other, and the words of families 0, 5 and 9 that no row lists (R76 to R80,
R88, R89). -/

namespace Sys2Proof

variable {w : Word} {i : Instr} {f n : Nat}

/-! ### Encoding, then decoding -/

/-- The word of a well-formed instruction decodes to it: the family and the fields of a format are what it was made of. -/
theorem decodeWord_encode (h : i.wf = true) : decodeWord (encode i) = .ok i := by
  cases i with
  | cls | ret => rfl
  | jp nnn | call nnn | ldI nnn | jpV0 nnn =>
    simp [encode, decodeWord, familyOf_formatNNN, fieldNNN_formatNNN]
  | seByte x kk | sneByte x kk | ldByte x kk | addByte x kk | rnd x kk =>
    simp [encode, decodeWord, familyOf_formatXKK, fieldX_formatXKK, fieldKK_formatXKK]
  | seReg x y =>
    simp [encode, decodeWord, decodeFamily5, familyOf_formatXYN, fieldX_formatXYN, fieldY_formatXYN, fieldN_formatXYN]
  | ldReg x y | orReg x y | andReg x y | xorReg x y | addReg x y | subReg x y | shr x y | subnReg x y | shl x y =>
    simp [encode, decodeWord, decodeFamily8, familyOf_formatXYN, fieldX_formatXYN, fieldY_formatXYN, fieldN_formatXYN]
  | sneReg x y =>
    simp [encode, decodeWord, decodeFamily9, familyOf_formatXYN, fieldX_formatXYN, fieldY_formatXYN, fieldN_formatXYN]
  | drw x y n =>
    have hn : n < 16 := of_decide_eq_true h
    simp [encode, decodeWord, familyOf_formatXYN, fieldX_formatXYN, fieldY_formatXYN, fieldN_formatXYN, hn]
  | skp x | sknp x =>
    simp [encode, decodeWord, decodeFamilyE, familyOf_formatXKK, fieldX_formatXKK, fieldKK_formatXKK]
  | ldVxDt x | ldVxK x | ldDtVx x | ldStVx x | addIVx x | ldFVx x | ldBVx x | ldMemVx x | ldVxMem x =>
    simp [encode, decodeWord, decodeFamilyF, familyOf_formatXKK, fieldX_formatXKK, fieldKK_formatXKK]

/-- Settles O4: the two bytes of a word give the word back, and the word of a well-formed instruction decodes to it. -/
theorem decodeOfEncodeIsTheInstruction : Obligations.DecodeOfEncodeIsTheInstruction := fun i h =>
  (decode_bytes_of_word (encode i)).trans (decodeWord_encode h)

/-! ### Decoding, then encoding: the format of a word's own fields is the word -/

theorem formatNNN_fields (hf : (familyOf w).toNat = f) : formatNNN f (fieldNNN w) = w := by
  rw [familyOf_toNat] at hf
  apply BitVec.eq_of_toNat_eq
  rw [formatNNN_toNat (by omega), fieldNNN_toNat]
  omega

theorem formatXKK_fields (hf : (familyOf w).toNat = f) : formatXKK f (fieldX w) (fieldKK w) = w := by
  rw [familyOf_toNat] at hf
  apply BitVec.eq_of_toNat_eq
  rw [formatXKK_toNat (by omega), fieldX_val, fieldKK_toNat]
  omega

theorem formatXYN_fields (hf : (familyOf w).toNat = f) (hn : (fieldN w).toNat = n) :
    formatXYN f (fieldX w) (fieldY w) n = w := by
  rw [familyOf_toNat] at hf
  rw [fieldN_toNat] at hn
  apply BitVec.eq_of_toNat_eq
  rw [formatXYN_toNat (by omega) _ _ (by omega), fieldX_val, fieldY_val]
  omega

/-- `formatXKK_fields` where the low byte is a sub-opcode. -/
theorem formatXKK_subOpcode (hf : (familyOf w).toNat = f) {kk : Byte} (hk : (fieldKK w).toNat = kk.toNat) :
    formatXKK f (fieldX w) kk = w :=
  BitVec.eq_of_toNat_eq hk ▸ formatXKK_fields hf

theorem encode_of_decodeFamily0 (h : decodeFamily0 w = .ok i) : i.wf = true ∧ encode i = w := by
  unfold decodeFamily0 at h
  split at h <;> cases h <;> exact ⟨rfl, (BitVec.eq_of_toNat_eq ‹_›).symm⟩

theorem encode_of_decodeFamily5 (hf : (familyOf w).toNat = 0x5) (h : decodeFamily5 w = .ok i) :
    i.wf = true ∧ encode i = w := by
  unfold decodeFamily5 at h
  split at h <;> cases h
  exact ⟨rfl, formatXYN_fields hf ‹_›⟩

theorem encode_of_decodeFamily8 (hf : (familyOf w).toNat = 0x8) (h : decodeFamily8 w = .ok i) :
    i.wf = true ∧ encode i = w := by
  unfold decodeFamily8 at h
  split at h <;> cases h <;> exact ⟨rfl, formatXYN_fields hf ‹_›⟩

theorem encode_of_decodeFamily9 (hf : (familyOf w).toNat = 0x9) (h : decodeFamily9 w = .ok i) :
    i.wf = true ∧ encode i = w := by
  unfold decodeFamily9 at h
  split at h <;> cases h
  exact ⟨rfl, formatXYN_fields hf ‹_›⟩

theorem encode_of_decodeFamilyE (hf : (familyOf w).toNat = 0xE) (h : decodeFamilyE w = .ok i) :
    i.wf = true ∧ encode i = w := by
  unfold decodeFamilyE at h
  split at h <;> cases h <;> exact ⟨rfl, formatXKK_subOpcode hf ‹_›⟩

theorem encode_of_decodeFamilyF (hf : (familyOf w).toNat = 0xF) (h : decodeFamilyF w = .ok i) :
    i.wf = true ∧ encode i = w := by
  unfold decodeFamilyF at h
  split at h <;> cases h <;> exact ⟨rfl, formatXKK_subOpcode hf ‹_›⟩

/-- The row count of a decoded `DRW` is four bits. -/
theorem wf_drw_fieldN (w : Word) : (Instr.drw (fieldX w) (fieldY w) (fieldN w).toNat).wf = true :=
  decide_eq_true (fieldN w).isLt

/-- Settles O5: the family's decoder keeps every field, and the format puts them back where they were. -/
theorem encodeOfDecodeIsTheWord : Obligations.EncodeOfDecodeIsTheWord := by
  intro w i h
  unfold decodeWord at h
  split at h
  case h_1 hf => exact encode_of_decodeFamily0 h
  case h_6 hf => exact encode_of_decodeFamily5 hf h
  case h_9 hf => exact encode_of_decodeFamily8 hf h
  case h_10 hf => exact encode_of_decodeFamily9 hf h
  case h_14 hf => cases h; exact ⟨wf_drw_fieldN w, formatXYN_fields hf rfl⟩
  case h_15 hf => exact encode_of_decodeFamilyE hf h
  case h_16 hf => exact encode_of_decodeFamilyF hf h
  case h_2 hf | h_3 hf | h_11 hf | h_12 hf => cases h; exact ⟨rfl, formatNNN_fields hf⟩
  case h_4 hf | h_5 hf | h_7 hf | h_8 hf | h_13 hf => cases h; exact ⟨rfl, formatXKK_fields hf⟩
  case h_17 => cases h

/-! ### Unlisted words of families 0, 5 and 9 (R88, R89) -/

theorem decodeFamily0_of_unlisted (hcls : w ≠ 0x00E0#16) (hret : w ≠ 0x00EE#16) :
    decodeFamily0 w = .error .family0NotListed := by
  unfold decodeFamily0
  split
  case h_1 h => exact absurd (BitVec.eq_of_toNat_eq h) hcls
  case h_2 h => exact absurd (BitVec.eq_of_toNat_eq h) hret
  case h_3 => rfl

theorem decodeFamily5_of_unlisted (hn : fieldN w ≠ 0x0#4) : decodeFamily5 w = .error .family5LowNibble := by
  unfold decodeFamily5
  split
  case h_1 h => exact absurd (BitVec.eq_of_toNat_eq h) hn
  case h_2 => rfl

theorem decodeFamily9_of_unlisted (hn : fieldN w ≠ 0x0#4) : decodeFamily9 w = .error .family9LowNibble := by
  unfold decodeFamily9
  split
  case h_1 h => exact absurd (BitVec.eq_of_toNat_eq h) hn
  case h_2 => rfl

/-- Settles O8: the family's decoder is chosen by the top nibble and rejects whatever differs in a fixed bit. -/
theorem families059CompareEveryFixedBit : Obligations.Families059CompareEveryFixedBit := fun _ =>
  ⟨fun hf hcls hret => (decodeWord_family0 (congrArg BitVec.toNat hf)).trans (decodeFamily0_of_unlisted hcls hret),
    fun hf hn => (decodeWord_family5 (congrArg BitVec.toNat hf)).trans (decodeFamily5_of_unlisted hn),
    fun hf hn => (decodeWord_family9 (congrArg BitVec.toNat hf)).trans (decodeFamily9_of_unlisted hn)⟩

/-- Settles O9: the decoder evaluates on each of the ten listed words. -/
theorem listedWordsDecodeToTheirInstructions : Obligations.ListedWordsDecodeToTheirInstructions := by
  unfold Obligations.ListedWordsDecodeToTheirInstructions
  decide

end Sys2Proof
end

section
/-! 48_step_cycle.md: one invocation: how it goes, what a failure leaves, what no invocation touches (R170 to R177). -/

namespace Sys2Proof.Machine

variable {s t : State} {i : Instr}

/-! ### The invocation that runs its instruction, and the one that never fetches -/

theorem invoke_of_decode_ok (hpc : s.pc.toNat ≤ 4094) (hd : decode s.fetchBytes = .ok i) :
    invoke s = exec i { s with drawFlag := false } := by
  rcases invoke_cases s with ⟨hgt, -⟩ | ⟨-, ⟨e, he⟩, -⟩ | ⟨j, -, hj, h⟩
  · omega
  · rw [hd] at he; cases he
  · rw [hd] at hj; cases hj; exact h

theorem invoke_of_pc_gt (hpc : 4094 < s.pc.toNat) : invoke s = .next (s.fail (.pcOutOfBounds s.pc)) := by
  rcases invoke_cases s with ⟨-, h⟩ | ⟨hle, -, -⟩ | ⟨-, hle, -, -⟩
  · exact h
  · omega
  · omega

/-- Settles O11: a due pass of the CPU loop is an invocation with one period less, and the fetched bytes are the same. -/
theorem stepRunsTheDecodedInstruction : Obligations.StepRunsTheDecodedInstruction := by
  intro s i hfreq hhalted hphase hdue hpc hd
  rw [step_cpuLoop (decide_eq_true hfreq) hhalted hphase, cpuLoopPass_of_due hfreq hdue]
  exact invoke_of_decode_ok (s := { s with cpuAccum := s.cpuAccum - 1 / (s.cfg.cpuFrequency : Rat) }) hpc hd

/-- Settles O13: of the three ways an invocation goes, only the failed fetch bound has `PC` above 4094. -/
theorem fetchPastTheMemoryFails : Obligations.FetchPastTheMemoryFails := fun _ => invoke_of_pc_gt

/-- Settles O14: the scheduler looks at the halt record before it looks at anything else. -/
theorem haltedMachineTakesNoStep : Obligations.HaltedMachineTakesNoStep := fun _ _ hfreq hhalted =>
  step_halted (decide_eq_true hfreq) hhalted

/-! ### What an invocation leaves -/

/-- `invoke_effect` for a given next state: a failure, or the effect of the decoded instruction. -/
theorem effect_of_invoke (h : invoke s = .next t) :
    (∃ f, t = s.fail f) ∨
      ∃ i, s.pc.toNat ≤ 4094 ∧ decode s.fetchBytes = .ok i ∧ Effect i { s with drawFlag := false } t := by
  obtain ⟨t', ht', hcase⟩ := invoke_effect s
  cases ht'.symm.trans h
  exact hcase

/-- Settles O15: an instruction that has an effect leaves `halted`, so a halted next state comes from `State.fail`. -/
theorem failureLeavesTheStateAsItWas : Obligations.FailureLeavesTheStateAsItWas := by
  intro s t hrun h hhalted
  obtain ⟨f, rfl⟩ | ⟨i, -, -, he⟩ := effect_of_invoke h
  · rfl
  · exact absurd (he.halted.trans hrun) hhalted

/-- Settles O16: neither a failure nor an instruction's effect reaches the other agents' state. -/
theorem invocationLeavesTheOtherAgentsAlone : Obligations.InvocationLeavesTheOtherAgentsAlone := by
  intro s t h
  obtain ⟨f, rfl⟩ | ⟨i, -, -, he⟩ := effect_of_invoke h
  · exact ⟨rfl, rfl, rfl, rfl, rfl, rfl⟩
  · exact ⟨he.keypad, he.cfg, he.timerAccum, he.cpuAccum, he.phase, he.inputs⟩

/-- Settles O39: a failure clears the flag and leaves the screen; an instruction that completes leaves the machine running and
sets the flag exactly when it is `CLS` or `DRW`, the two that touch the screen. -/
theorem drawFlagMarksClsAndDrw : Obligations.DrawFlagMarksClsAndDrw := by
  intro s t hrun h
  obtain ⟨f, rfl⟩ | ⟨i, hpc, hd, he⟩ := effect_of_invoke h
  · exact ⟨⟨nofun, fun ⟨_, hh, _⟩ => nomatch hh⟩, fun _ => rfl⟩
  · simp only [hd, Except.ok.injEq]
    obtain ⟨hset, hi⟩ | ⟨hfb, hclear, hcls, hdrw⟩ := he.screen
    · exact ⟨⟨fun _ => ⟨hpc, he.halted.trans hrun, hi⟩, fun _ => hset⟩, fun hc => nomatch hset.symm.trans hc⟩
    · refine ⟨⟨fun hs => (nomatch hclear.symm.trans hs), fun ⟨_, _, hi⟩ => ?_⟩, fun _ => hfb⟩
      obtain hi | ⟨x, y, n, hi⟩ := hi
      · exact absurd hi hcls
      · exact absurd hi (hdrw x y n)

end Sys2Proof.Machine
end

section
/-! 10_state.md: which step may change which piece of state (R30, R36, R40, R41). -/

namespace Sys2Proof.Machine

variable {s t : State}

/-- A step that runs no instruction to its end leaves the registers, `PC`, the call stack, memory, the screen and the
configuration. -/
def LeavesProgramState (s t : State) : Prop :=
  t = { s with
    dt := t.dt, st := t.st, keypad := t.keypad, drawFlag := t.drawFlag, timerAccum := t.timerAccum, cpuAccum := t.cpuAccum,
    halted := t.halted, phase := t.phase, inputs := t.inputs }

/-- A step runs an instruction to its end, from the CPU loop, or leaves the program's state. -/
theorem step_effect (h : step s = .next t) :
    LeavesProgramState s t ∨
      ∃ i accum, s.phase = .cpuLoop ∧ s.pc.toNat ≤ 4094 ∧ decode s.fetchBytes = .ok i ∧
        Effect i { s with drawFlag := false, cpuAccum := accum } t := by
  obtain ⟨-, -, ⟨-, -, rfl⟩ | ⟨keys, rest, -, -, rfl⟩ | ⟨elapsed, rest, -, -, -, rfl⟩ | ⟨elapsed, -, -, rfl⟩ |
    ⟨elapsed, -, -, rfl⟩ | ⟨hphase, -, hinvoke⟩ | ⟨-, -, rfl⟩⟩ := step_cases h
  case inr.inr.inr.inr.inr.inl =>
    obtain ⟨f, rfl⟩ | ⟨i, hpc, hd, he⟩ := effect_of_invoke hinvoke
    · exact .inl rfl
    · exact .inr ⟨i, _, hphase, hpc, hd, he⟩
  all_goals exact .inl rfl

/-- Settles O53: an instruction's effect leaves the configuration, and so does every other step. -/
theorem configurationNeverChanges : Obligations.ConfigurationNeverChanges := by
  intro s t h
  obtain hleaves | ⟨i, accum, -, -, -, he⟩ := step_effect h
  · rw [hleaves]
  · exact he.cfg

/-- Settles O51: of the seven ways a step goes only the event source's move writes the keypad. -/
theorem keypadChangesOnlyBetweenCalls : Obligations.KeypadChangesOnlyBetweenCalls := by
  intro s t h hne
  obtain ⟨-, -, ⟨-, -, rfl⟩ | ⟨keys, rest, hidle, hinputs, rfl⟩ | ⟨elapsed, rest, -, -, -, rfl⟩ | ⟨elapsed, -, -, rfl⟩ |
    ⟨elapsed, -, -, rfl⟩ | ⟨-, -, hinvoke⟩ | ⟨-, -, rfl⟩⟩ := step_cases h
  case inr.inl => exact ⟨hidle, keys, rest, hinputs, rfl⟩
  case inr.inr.inr.inr.inr.inl =>
    obtain ⟨hkeypad, -⟩ := invocationLeavesTheOtherAgentsAlone _ _ hinvoke
    exact absurd hkeypad hne
  all_goals exact absurd rfl hne

/-- What one step does to the two timers: nothing, a tick of both, or what the instruction it runs does (R30). -/
theorem step_timers (h : step s = .next t) :
    (t.dt = s.dt ∧ t.st = s.st) ∨
      ((∃ elapsed, s.phase = .timerLoop elapsed) ∧ t.dt = countDown s.dt ∧ t.st = countDown s.st) ∨
      ∃ i, s.phase = .cpuLoop ∧ decode s.fetchBytes = .ok i ∧ (t.dt = s.dt ∨ ∃ x, i = .ldDtVx x ∧ t.dt = s.readV x) ∧
        (t.st = s.st ∨ ∃ x, i = .ldStVx x ∧ t.st = s.readV x) := by
  obtain ⟨-, -, ⟨-, -, rfl⟩ | ⟨keys, rest, -, -, rfl⟩ | ⟨elapsed, rest, -, -, -, rfl⟩ | ⟨elapsed, hphase, -, rfl⟩ |
    ⟨elapsed, -, -, rfl⟩ | ⟨hphase, -, hinvoke⟩ | ⟨-, -, rfl⟩⟩ := step_cases h
  case inr.inr.inr.inl => exact .inr (.inl ⟨⟨elapsed, hphase⟩, rfl, rfl⟩)
  case inr.inr.inr.inr.inr.inl =>
    obtain ⟨f, rfl⟩ | ⟨i, -, hd, he⟩ := effect_of_invoke hinvoke
    · exact .inl ⟨rfl, rfl⟩
    · exact .inr (.inr ⟨i, hphase, hd, he.dt, he.st⟩)
  all_goals exact .inl ⟨rfl, rfl⟩

/-- A timer that a tick changes was not at its floor, so it falls by one (R185). -/
theorem countDown_toNat_add_one {b : Byte} (h : countDown b ≠ b) : (countDown b).toNat + 1 = b.toNat := by
  have hpos : b.toNat ≠ 0 := fun h0 => h (by simp [countDown, h0])
  rw [countDown_toNat]
  omega

/-- Settles O52: a changed timer was ticked or loaded, since a step does nothing else to it. -/
theorem timersChangeOnlyByTickOrLoad : Obligations.TimersChangeOnlyByTickOrLoad := by
  intro s t h
  obtain ⟨hdt, hst⟩ | ⟨hphase, hdt, hst⟩ | ⟨i, hphase, hd, hdt, hst⟩ := step_timers h
  · exact ⟨fun hne => absurd hdt hne, fun hne => absurd hst hne⟩
  · rw [hdt, hst]
    exact ⟨fun hne => .inl ⟨hphase, countDown_toNat_add_one hne⟩, fun hne => .inl ⟨hphase, countDown_toNat_add_one hne⟩⟩
  · rw [hd]
    refine ⟨fun hne => .inr ⟨hphase, ?_⟩, fun hne => .inr ⟨hphase, ?_⟩⟩
    · obtain ⟨x, rfl, hx⟩ := hdt.resolve_left hne
      exact ⟨x, rfl, hx⟩
    · obtain ⟨x, rfl, hx⟩ := hst.resolve_left hne
      exact ⟨x, rfl, hx⟩

end Sys2Proof.Machine
end

section
/-! 10_state.md, 49_scheduler_timers.md: the three invariants of the step (R23, R33, R189). -/

namespace Sys2Proof.Machine

variable {s t : State} {i : Instr}

/-! ### The font and the form of memory (R33) -/

theorem memoryCanonical_congr (hm : t.mem = s.mem) (hc : t.cfg = s.cfg) : MemoryCanonical t ↔ MemoryCanonical s := by
  rw [MemoryCanonical, MemoryCanonical, hm, hc]

theorem fontIntact_congr (hm : t.mem = s.mem) (hc : t.cfg = s.cfg) : FontIntact t ↔ FontIntact s := by
  simp only [FontIntact, sameMemory_of_eq hm hc _, hc]

/-- The memory an instruction leaves is the one it found, or that with a run written between the font and the end. -/
theorem Effect.keeps_font_and_form (he : Effect i s t) (hm : MemoryCanonical s) (hf : FontIntact s) :
    MemoryCanonical t ∧ FontIntact t := by
  obtain hmem | ⟨base, bs, hbase, hend, hmem⟩ := he.mem
  · exact ⟨(memoryCanonical_congr hmem he.cfg).mpr hm, (fontIntact_congr hmem he.cfg).mpr hf⟩
  · have hmem : t.mem = (s.writeBytes base bs).mem := hmem
    have hcfg : t.cfg = (s.writeBytes base bs).cfg := he.cfg
    exact ⟨(memoryCanonical_congr hmem hcfg).mpr (memoryCanonical_writeBytes hm hend),
      (fontIntact_congr hmem hcfg).mpr (fontIntact_writeBytes hm hf hbase)⟩

/-- Settles O56: only an instruction writes memory, and it writes a run of bytes from 80 up. -/
theorem fontAndMemoryFormAreKept : Obligations.FontAndMemoryFormAreKept := by
  intro s t hm hf h
  obtain hleaves | ⟨i, accum, -, -, -, he⟩ := step_effect h
  · rw [hleaves]
    exact ⟨hm, hf⟩
  · exact he.keeps_font_and_form hm hf

/-! ### `PC` and the live return addresses (R23) -/

/-- From an address at which an instruction can stand, an instruction keeps `PC` and the live return addresses bounded. -/
theorem Effect.keeps_pcBounded (he : Effect i s t) (hpc : s.pc.toNat ≤ 4094) (hs : PcBounded s) : PcBounded t := by
  obtain ⟨-, hlive⟩ := hs
  obtain ⟨hsp, hstack, hmove⟩ | ⟨hfree, hsp, hstack, hjump⟩ | ⟨hframe, hsp, hstack, hret⟩ := he.flow
  · rw [PcBounded, hsp, hstack]
    refine ⟨?_, hlive⟩
    obtain h | h | h | h := hmove <;> bv_omega
  · rw [PcBounded, hsp, hstack]
    refine ⟨by omega, fun k hk => ?_⟩
    obtain hk | hk := Nat.lt_succ_iff_lt_or_eq.mp hk
    · have hne : s.sp.val ≠ k.val := by omega
      simpa [Vector.getElem_set_ne, hne] using hlive k hk
    · simpa [← hk] using hpc
  · rw [PcBounded, hsp, hstack]
    have hpopped := hlive ⟨s.sp.val - 1, by omega⟩ (by simp only; omega)
    refine ⟨?_, fun k hk => hlive k (by omega)⟩
    simp only [Fin.getElem_fin] at hpopped
    bv_omega

/-- Settles O57: only an instruction moves `PC` or the stack, and none runs above 4094. -/
theorem pcAndReturnAddressesStayBounded : Obligations.PcAndReturnAddressesStayBounded := by
  intro s t hs h
  obtain hleaves | ⟨i, accum, -, hpc, -, he⟩ := step_effect h
  · rw [hleaves]
    exact hs
  · exact he.keeps_pcBounded hpc hs

/-! ### The accumulators (R189) -/

theorem clocksInRange_idle_iff (hp : s.phase = .idle) :
    ClocksInRange s ↔
      0 ≤ s.timerAccum ∧ 0 ≤ s.cpuAccum ∧ s.timerAccum < 1 / 60 ∧ s.cpuAccum < 1 / (s.cfg.cpuFrequency : Rat) := by
  rw [ClocksInRange, hp]

theorem clocksInRange_timerLoop_iff {elapsed : Time} (hp : s.phase = .timerLoop elapsed) :
    ClocksInRange s ↔
      0 ≤ s.timerAccum ∧ 0 ≤ s.cpuAccum ∧ 0 ≤ elapsed ∧ s.cpuAccum < 1 / (s.cfg.cpuFrequency : Rat) := by
  rw [ClocksInRange, hp]

theorem clocksInRange_cpuLoop_iff (hp : s.phase = .cpuLoop) :
    ClocksInRange s ↔ 0 ≤ s.timerAccum ∧ 0 ≤ s.cpuAccum ∧ s.timerAccum < 1 / 60 := by
  rw [ClocksInRange, hp]

/-- Settles O58: a due pass subtracts a period from an accumulator that holds one, each loop is left with less than a period, and
only a time that is not negative is added. -/
theorem accumulatorsStayInRange : Obligations.AccumulatorsStayInRange := by
  intro s t hs h
  obtain ⟨-, -, ⟨-, -, rfl⟩ | ⟨keys, rest, hp, -, rfl⟩ | ⟨elapsed, rest, hp, -, helapsed, rfl⟩ | ⟨elapsed, hp, hdue, rfl⟩ |
    ⟨elapsed, hp, hnot, rfl⟩ | ⟨hp, hdue, hinvoke⟩ | ⟨hp, hnot, rfl⟩⟩ := step_cases h
  · exact hs
  · exact hs
  · obtain ⟨htimer, hcpu, -, hcpuLt⟩ := (clocksInRange_idle_iff hp).mp hs
    exact (clocksInRange_timerLoop_iff rfl).mpr ⟨add_nonneg htimer helapsed, hcpu, helapsed, hcpuLt⟩
  · obtain ⟨-, hcpu⟩ := (clocksInRange_timerLoop_iff hp).mp hs
    refine (clocksInRange_timerLoop_iff ?_).mpr ⟨sub_nonneg.mpr hdue, hcpu⟩
    exact hp
  · obtain ⟨htimer, hcpu, helapsed, -⟩ := (clocksInRange_timerLoop_iff hp).mp hs
    exact (clocksInRange_cpuLoop_iff rfl).mpr ⟨htimer, add_nonneg hcpu helapsed, hnot⟩
  · obtain ⟨htimer, -, htimerLt⟩ := (clocksInRange_cpuLoop_iff hp).mp hs
    obtain ⟨-, -, htimer', hcpu', hphase', -⟩ := invocationLeavesTheOtherAgentsAlone _ _ hinvoke
    rw [clocksInRange_cpuLoop_iff (hphase'.trans hp), htimer', hcpu']
    exact ⟨htimer, sub_nonneg.mpr hdue, htimerLt⟩
  · obtain ⟨htimer, hcpu, htimerLt⟩ := (clocksInRange_cpuLoop_iff hp).mp hs
    exact (clocksInRange_idle_iff rfl).mpr ⟨htimer, hcpu, htimerLt, hnot⟩

end Sys2Proof.Machine
end

section
/-! 49_scheduler_timers.md, 60_exceptions.md: the host's moves and its check after a call (R182, R204, R219). -/

namespace Sys2Proof.Machine

variable {s : State} {elapsed : Time} {rest : List HostInput}

/-! ### The host's four moves -/

theorem hostMove_advance (hi : s.inputs = .advance elapsed :: rest) (h : 0 ≤ elapsed) :
    hostMove s = .next { s with timerAccum := s.timerAccum + elapsed, phase := .timerLoop elapsed, inputs := rest } := by
  simp only [hostMove, hi, if_pos ((advance_wf_iff elapsed).mpr h)]

theorem hostMove_advance_negative (hi : s.inputs = .advance elapsed :: rest) (h : elapsed < 0) :
    hostMove s = .refused (.negativeElapsed elapsed) := by
  simp only [hostMove, hi, if_neg (mt (advance_wf_iff elapsed).mp (not_le.mpr h))]

theorem hostMove_setKeypad {keys : Vector Bool 16} (hi : s.inputs = .setKeypad keys :: rest) :
    hostMove s = .next { s with keypad := keys, inputs := rest } := by
  simp only [hostMove, hi]

theorem hostMove_wait (hi : s.inputs = []) : hostMove s = .next s := by
  simp only [hostMove, hi]

/-- Settles O50: between calls a step is the host's move, and the list's head says which. -/
theorem hostMovesHappenBetweenCalls : Obligations.HostMovesHappenBetweenCalls := by
  intro s hfreq hhalted hphase
  rw [step_idle (decide_eq_true hfreq) hhalted hphase]
  exact ⟨fun _ _ hi => ⟨hostMove_advance hi, hostMove_advance_negative hi⟩, fun _ _ hi => hostMove_setKeypad hi, hostMove_wait⟩

/-- The host's check finds `PC` outside the memory (R204 a). -/
theorem endCall_of_pc_gt (h : 4095 < s.pc.toNat) :
    endCall s = { s with phase := .idle, halted := some (.pcOutOfBounds s.pc) } := by
  rw [endCall, if_pos h]

/-- Settles O49: with no period due the CPU loop returns, and the host's check finds `PC` outside the memory. -/
theorem hostCheckHaltsPastTheMemory : Obligations.HostCheckHaltsPastTheMemory := by
  intro s hfreq hhalted hphase hnot hpc
  rw [step_cpuLoop (decide_eq_true hfreq) hhalted hphase, cpuLoopPass_of_not_due hfreq hnot, endCall_of_pc_gt hpc]

/-! ### What a step of a constructed machine answers -/

theorem hostMove_outcome (s : State) :
    (∃ t, hostMove s = .next t) ∨ ∃ elapsed, elapsed < 0 ∧ hostMove s = .refused (.negativeElapsed elapsed) := by
  match hi : s.inputs with
  | [] => exact .inl ⟨_, hostMove_wait hi⟩
  | .setKeypad keys :: rest => exact .inl ⟨_, hostMove_setKeypad hi⟩
  | .advance elapsed :: rest =>
    rcases le_or_gt 0 elapsed with h | h
    · exact .inl ⟨_, hostMove_advance hi h⟩
    · exact .inr ⟨elapsed, h, hostMove_advance_negative hi h⟩

theorem timerLoopPass_answers (elapsed : Time) (s : State) : ∃ t, timerLoopPass elapsed s = .next t := by
  rcases le_or_gt (1 / 60) s.timerAccum with h | h
  · exact ⟨_, timerLoopPass_of_due elapsed h⟩
  · exact ⟨_, timerLoopPass_of_not_due elapsed h⟩

theorem cpuLoopPass_answers (hfreq : 0 < s.cfg.cpuFrequency) : ∃ t, cpuLoopPass s = .next t := by
  rcases le_or_gt (1 / (s.cfg.cpuFrequency : Rat)) s.cpuAccum with h | h
  · obtain ⟨t, ht, -⟩ := invoke_effect { s with cpuAccum := s.cpuAccum - 1 / (s.cfg.cpuFrequency : Rat) }
    exact ⟨t, (cpuLoopPass_of_due hfreq h).trans ht⟩
  · exact ⟨_, cpuLoopPass_of_not_due hfreq h⟩

/-- A step of a valid machine answers a next state, the fault of a halted machine, or the refusal of a negative time. -/
theorem step_outcome (hwf : s.cfg.wf = true) :
    (∃ t, step s = .next t) ∨ (∃ f, s.halted = some f ∧ step s = .fault (.halted f)) ∨
      ∃ elapsed, elapsed < 0 ∧ step s = .refused (.negativeElapsed elapsed) := by
  match hh : s.halted, hp : s.phase with
  | some f, _ => exact .inr (.inl ⟨f, rfl, step_halted hwf hh⟩)
  | none, .idle =>
    rw [step_idle hwf hh hp]
    exact (hostMove_outcome s).imp_right .inr
  | none, .timerLoop elapsed =>
    rw [step_timerLoop hwf hh hp]
    exact .inl (timerLoopPass_answers elapsed s)
  | none, .cpuLoop =>
    rw [step_cpuLoop hwf hh hp]
    exact .inl (cpuLoopPass_answers (of_decide_eq_true hwf))

end Sys2Proof.Machine
end

section
/-! 70_reset_and_hazards.md: construction, and that every machine it leads to is safe (R62, R230, R231, R233). -/

namespace Sys2Proof.Machine

variable {s t : State} {cfg : Config} {rom : List Byte}

/-! ### A machine with no program yet -/

/-- The machine that construction starts from: the reset state with the given configuration. -/
def unloaded (cfg : Config) : State := { State.reset with cfg := cfg }

/-- A machine with no program reads as constructed. -/
theorem unloaded_readByte (cfg : Config) (a : Nat) : (unloaded cfg).readByte a = constructedByte cfg.font a := rfl

theorem unloaded_memoryCanonical (cfg : Config) : MemoryCanonical (unloaded cfg) :=
  ⟨List.Pairwise.nil, fun _ hc => absurd hc List.not_mem_nil⟩

theorem unloaded_fontIntact (cfg : Config) : FontIntact (unloaded cfg) := fun _ h => constructedByte_font h

theorem unloaded_safe (hwf : cfg.wf = true) : Safe (unloaded cfg) where
  configured := hwf
  canonical := unloaded_memoryCanonical cfg
  font := unloaded_fontIntact cfg
  pc := ⟨(by decide : (512 : Word).toNat ≤ 4350), fun _ h => absurd h (Nat.not_lt_zero _)⟩
  clocks := by
    have hfreq : (0 : Rat) < cfg.cpuFrequency := by exact_mod_cast (of_decide_eq_true hwf : 1 ≤ cfg.cpuFrequency)
    exact (clocksInRange_idle_iff rfl).mpr ⟨le_refl 0, le_refl 0, by norm_num [unloaded, State.reset], one_div_pos.mpr hfreq⟩

/-- Settles O2: the reset state is the machine with the default configuration and no program. -/
theorem resetStateIsSafe : Obligations.ResetStateIsSafe := unloaded_safe (cfg := defaultConfig) rfl

/-- Settles O1: memory reads as constructed, and every other piece of state is the literal written in `State.reset`. -/
theorem resetStateHoldsTheConstructionValues : Obligations.ResetStateHoldsTheConstructionValues :=
  ⟨fun _ => Vector.getElem_replicate _, rfl, rfl, rfl, rfl, rfl, fun _ h => constructedByte_font h,
    fun _ h => constructedByte_zero h, blankFramebuffer_cell, fun _ => Vector.getElem_replicate _, rfl, rfl, rfl, rfl, rfl, rfl⟩

/-! ### The program in memory -/

theorem config_wf_iff : cfg.wf = true ↔ 1 ≤ cfg.cpuFrequency := decide_eq_true_iff

theorem romFits_iff : romFits rom = true ↔ rom.length ≤ 3584 := decide_eq_true_iff

theorem construct_loads (hfreq : 1 ≤ cfg.cpuFrequency) (hlen : rom.length ≤ 3584) :
    construct cfg rom = .next ((unloaded cfg).writeBytes 512 rom) := by
  rw [construct, if_pos (config_wf_iff.mpr hfreq), if_pos (romFits_iff.mpr hlen)]
  rfl

theorem construct_refuses_frequency_zero (rom : List Byte) (hfreq : cfg.cpuFrequency = 0) :
    construct cfg rom = .refused .cpuFrequencyBelowOne := by
  rw [construct, if_neg (by rw [config_wf_iff]; omega)]

theorem construct_refuses_long_rom (hfreq : 1 ≤ cfg.cpuFrequency) (hlen : 3584 < rom.length) :
    construct cfg rom = .refused (.romTooLong rom.length) := by
  rw [construct, if_pos (config_wf_iff.mpr hfreq), if_neg (mt romFits_iff.mp (Nat.not_le.mpr hlen))]

/-- The program goes above the font and inside the memory, so the machine stays safe. -/
theorem loaded_safe (hwf : cfg.wf = true) (hlen : rom.length ≤ 3584) : Safe ((unloaded cfg).writeBytes 512 rom) :=
  { unloaded_safe hwf with
    canonical := memoryCanonical_writeBytes (unloaded_memoryCanonical cfg) (by omega)
    font := fontIntact_writeBytes (unloaded_memoryCanonical cfg) (unloaded_fontIntact cfg) (by decide) }

/-- Settles O3: the loaded machine reads the program on its addresses and as constructed elsewhere. -/
theorem constructionPlacesTheProgramAt512 : Obligations.ConstructionPlacesTheProgramAt512 := by
  refine fun cfg rom => ⟨fun hfreq hlen => ?loaded, construct_refuses_frequency_zero rom, construct_refuses_long_rom⟩
  have hsafe := loaded_safe (config_wf_iff.mpr hfreq) hlen
  have hread := State.readByte_writeBytes (unloaded_memoryCanonical cfg).1 512 (bs := rom)
  refine ⟨_, construct_loads hfreq hlen, rfl, hsafe, fun j hj => ?program, hsafe.font, fun a ha hout => ?zero⟩
  case program => simp [hread, hj]
  case zero => rw [hread, dif_neg (by omega), unloaded_readByte, constructedByte_zero ha]

/-! ### Reachable states -/

theorem safe_of_construct (h : construct cfg rom = .next s) : Safe s := by
  rcases Nat.eq_zero_or_pos cfg.cpuFrequency with hzero | hfreq
  · rw [construct_refuses_frequency_zero rom hzero] at h
    cases h
  · rcases Nat.lt_or_ge 3584 rom.length with hlong | hlen
    · rw [construct_refuses_long_rom hfreq hlong] at h
      cases h
    · rw [construct_loads hfreq hlen] at h
      cases h
      exact loaded_safe (config_wf_iff.mpr hfreq) hlen

/-- Safety does not look at what the host will do. -/
theorem Safe.with_inputs (h : Safe s) (inputs : List HostInput) : Safe { s with inputs := inputs } :=
  ⟨h.configured, h.canonical, h.font, h.pc, h.clocks⟩

theorem Safe.step (hs : Safe s) (h : step s = .next t) : Safe t := by
  obtain ⟨hcanonical, hfont⟩ := fontAndMemoryFormAreKept s t hs.canonical hs.font h
  exact ⟨by rw [configurationNeverChanges s t h]; exact hs.configured, hcanonical, hfont,
    pcAndReturnAddressesStayBounded s t hs.pc h, accumulatorsStayInRange s t hs.clocks h⟩

theorem Reachable.safe (h : Reachable s) : Safe s := by
  induction h with
  | constructed h => exact (safe_of_construct h).with_inputs _
  | stepped _ h ih => exact ih.step h

/-- Settles O59: construction gives a safe machine, every step keeps it safe, and a safe machine's step has one of three answers. -/
theorem reachableStatesAreSafe : Obligations.ReachableStatesAreSafe := fun _ h =>
  ⟨h.safe, step_outcome h.safe.configured⟩

end Sys2Proof.Machine
end

section
/-! 40_family0_2_flow.md, 95_test_vectors.md: the return, and a call answered by a return (R101, E8). -/

namespace Sys2Proof.Machine

/-- With no frame in use there is nothing to pop, so `RET` fails (R101). -/
theorem exec_ret_underflow {s : State} (h : s.sp.val = 0) : exec .ret s = .next (s.fail (.stackUnderflow s.pc)) := by
  rcases s.popPc?_eq with ⟨hpos, -⟩ | ⟨-, hnone⟩
  · omega
  · rw [exec, execRet, hnone]; rfl

/-- Settles O20: with a frame in use the pop leaves the stack's contents; with none the return fails. -/
theorem retResumesAfterTheCall : Obligations.RetResumesAfterTheCall := fun _ =>
  ⟨fun h => ⟨_, exec_ret_pop h, rfl, rfl, rfl, sameMemory_of_eq rfl rfl⟩, exec_ret_underflow⟩

/-- After a push, wherever the jump went, the return resumes behind the pushed address with the old stack pointer. -/
theorem exec_ret_after_push {s : State} (h : s.sp.val < 16) (target : Word) :
    exec .ret { s with stack := s.stack.set s.sp.val s.pc, sp := ⟨s.sp.val + 1, by omega⟩, pc := target } =
      .next { s with stack := s.stack.set s.sp.val s.pc, pc := s.pc + 2 } := by
  rw [exec_ret_pop (Nat.succ_pos _)]
  simp

/-- Settles O21: the call pushes and the return pops the same entry; the entries below it are not written. -/
theorem callThenRetReturnsAfterTheCall : Obligations.CallThenRetReturnsAfterTheCall := by
  intro nnn s t hfree hcall
  cases (exec_call_push nnn hfree).symm.trans hcall
  refine ⟨_, exec_ret_after_push hfree (addrWord nnn), rfl, fun k hk => ?live, sameMemory_of_eq rfl rfl⟩
  case live => exact Vector.getElem_set_ne hfree k.isLt (Nat.ne_of_gt hk)

end Sys2Proof.Machine
end

section
/-! 43_family8_alu.md: the five ALU instructions that write the flag (R130 to R135). -/

namespace Sys2Proof.Machine

/-! ### What a flag-writing ALU instruction leaves -/

/-- The flag written to `V[15]`, then the result to `V[x]`, and the advance. -/
def State.writeFlagged (s : State) (x : Reg) (flag : Bool) (result : Byte) : State :=
  ((s.writeFlag flag).writeV x result).advance

variable (s : State) (x y : Reg) (flag : Bool) (result : Byte)

@[simp] theorem State.readV_writeFlagged_self : (s.writeFlagged x flag result).readV x = result :=
  State.readV_writeV_self _ _ _

theorem State.readV_writeFlagged_flag {x : Reg} (hx : x ≠ 15) : (s.writeFlagged x flag result).readV 15 = flagByte flag :=
  (State.readV_writeV_ne _ _ hx.symm).trans (State.readV_writeV_self _ _ _)

theorem State.writeFlagged_changesOnlyRegisters : ChangesOnlyRegisters s (s.writeFlagged x flag result) [x, 15] :=
  ⟨rfl, sameRegistersBut_flagged s x flag result, sameMemory_of_eq rfl rfl⟩

theorem State.prepareShift_writeFlagged_pc : ((s.prepareShift x y).writeFlagged x flag result).pc = s.pc + 2 := by
  rw [State.prepareShift_eq]; rfl

/-- The copy of `V[y]` that may come before a shift writes only `V[x]`, the destination. -/
theorem State.prepareShift_writeFlagged_changesOnlyRegisters :
    ChangesOnlyRegisters s ((s.prepareShift x y).writeFlagged x flag result) [x, 15] := by
  refine ⟨?_, sameRegistersBut_shifted s x y flag result, ?_⟩
  · rw [State.prepareShift_eq]; rfl
  · exact sameMemory_of_eq (by rw [State.prepareShift_eq]; rfl) (by rw [State.prepareShift_eq]; rfl)

theorem flagByte_decide (p : Prop) [Decidable p] : flagByte (decide p) = if p then 1 else 0 := by
  simp [flagByte]

/-! ### The flag and the result of each of the five -/

theorem exec_addReg :
    exec (.addReg x y) s =
      .next (s.writeFlagged x (carryOut ((s.readV x).toNat + (s.readV y).toNat)) (s.readV x + s.readV y)) := by
  rw [BitVec.add_def]; rfl

/-- The operand a difference or a shift reads for `V[r]` once the flag is written: the flag where `r` is 15 (R135). -/
def State.operandAfterFlag (s : State) (flag : Bool) (r : Reg) : Byte := if r = 15 then flagByte flag else s.readV r

theorem exec_subReg :
    exec (.subReg x y) s =
      let flag := noBorrow (s.readV x) (s.readV y)
      .next (s.writeFlagged x flag (s.operandAfterFlag flag x - s.operandAfterFlag flag y)) := by
  simp only [State.operandAfterFlag, ← State.readV_writeFlag]; rfl

theorem exec_subnReg :
    exec (.subnReg x y) s =
      let flag := noBorrow (s.readV y) (s.readV x)
      .next (s.writeFlagged x flag (s.operandAfterFlag flag y - s.operandAfterFlag flag x)) := by
  simp only [State.operandAfterFlag, ← State.readV_writeFlag]; rfl

/-- The value a shift starts from: `V[x]` with `shiftQuirk`, else `V[y]` (R132, R134). -/
def State.shiftOperand (s : State) (x y : Reg) : Byte := if s.cfg.shiftQuirk then s.readV x else s.readV y

theorem exec_shr :
    exec (.shr x y) s =
      let flag := lowBit (s.shiftOperand x y)
      .next ((s.prepareShift x y).writeFlagged x flag ((if x = 15 then flagByte flag else s.shiftOperand x y) >>> 1)) := by
  simp only [State.shiftOperand, ← State.readV_prepareShift, ← State.readV_writeFlag]; rfl

theorem exec_shl :
    exec (.shl x y) s =
      let flag := highBit (s.shiftOperand x y)
      .next ((s.prepareShift x y).writeFlagged x flag ((if x = 15 then flagByte flag else s.shiftOperand x y) <<< 1)) := by
  simp only [State.shiftOperand, ← State.readV_prepareShift, ← State.readV_writeFlag]; rfl

/-! ### Bytes as numbers -/

theorem byte_sub_toNat (a b : Byte) : (a - b).toNat = (256 + a.toNat - b.toNat) % 256 := by
  rw [BitVec.toNat_sub]; omega

theorem byte_shr_one_toNat (a : Byte) : (a >>> 1).toNat = a.toNat / 2 := by
  rw [BitVec.toNat_ushiftRight, Nat.shiftRight_one]

theorem byte_shl_one_toNat (a : Byte) : (a <<< 1).toNat = a.toNat * 2 % 256 := by
  rw [BitVec.toNat_shiftLeft, Nat.shiftLeft_eq]

/-- Settles O26: the carry is written, then the 8-bit sum, which is the sum modulo 256. -/
theorem addReportsItsCarry : Obligations.AddReportsItsCarry := fun x y s =>
  ⟨_, exec_addReg s x y, by simp, fun hx => (s.readV_writeFlagged_flag _ _ hx).trans (flagByte_decide _), rfl,
    s.writeFlagged_changesOnlyRegisters ..⟩

/-- Settles O27: both differences write the comparison, then the difference of what the operands are by then. -/
theorem subtractionsReportNoBorrow : Obligations.SubtractionsReportNoBorrow := by
  intro x y s
  refine ⟨⟨_, exec_subReg s x y, ⟨?sub, ?subFlag⟩, rfl, s.writeFlagged_changesOnlyRegisters ..⟩,
    ⟨_, exec_subnReg s x y, ⟨?subn, ?subnFlag⟩, rfl, s.writeFlagged_changesOnlyRegisters ..⟩⟩
  case sub | subn => simp only [State.readV_writeFlagged_self, byte_sub_toNat, State.operandAfterFlag, noBorrow, flagByte_decide]
  case subFlag | subnFlag => exact fun hx => (s.readV_writeFlagged_flag _ _ hx).trans (flagByte_decide _)

/-- Settles O28: the lost bit of the operand is written, then the shifted operand, or the shifted flag where `x` is 15. -/
theorem shiftsReportTheLostBit : Obligations.ShiftsReportTheLostBit := by
  intro x y s
  refine ⟨⟨_, exec_shr s x y, ⟨?shr, ?shrFlag⟩, s.prepareShift_writeFlagged_pc ..,
      s.prepareShift_writeFlagged_changesOnlyRegisters ..⟩,
    ⟨_, exec_shl s x y, ⟨?shl, ?shlFlag⟩, s.prepareShift_writeFlagged_pc ..,
      s.prepareShift_writeFlagged_changesOnlyRegisters ..⟩⟩
  case shr =>
    simp only [State.readV_writeFlagged_self, byte_shr_one_toNat, State.shiftOperand, lowBit_eq, flagByte_decide]
  case shl =>
    simp only [State.readV_writeFlagged_self, byte_shl_one_toNat, State.shiftOperand, highBit_eq, flagByte_decide]
  case shrFlag =>
    intro hx
    rw [State.readV_writeFlagged_flag _ _ _ hx, lowBit_eq, flagByte_decide, State.shiftOperand]
  case shlFlag =>
    intro hx
    rw [State.readV_writeFlagged_flag _ _ _ hx, highBit_eq, flagByte_decide, State.shiftOperand]

/-! ### The rows of R135's table -/

theorem flagByte_shr_one (f : Bool) : flagByte f >>> 1 = 0 := by
  cases f <;> rfl

theorem flagByte_lowBit (b : Byte) : flagByte (lowBit b) = b &&& 1 := by
  revert b; decide

theorem flagByte_highBit (b : Byte) : flagByte (highBit b) = b >>> 7 := by
  revert b; decide

theorem byte_shl_one (a : Byte) : a <<< 1 = a * 2 := by
  apply BitVec.eq_of_toNat_eq
  rw [byte_shl_one_toNat, BitVec.toNat_mul]
  rfl

/-- `SHR` with `x = 15` shifts the flag, whatever the operand was. -/
theorem exec_shr_flag (y : Reg) : ∃ t, exec (.shr 15 y) s = .next t ∧ t.readV 15 = 0 :=
  ⟨_, exec_shr s 15 y, by simp [flagByte_shr_one]⟩

/-- `SHL` with `x = 15` shifts the flag, the operand's top bit. -/
theorem exec_shl_flag (y : Reg) :
    ∃ t, exec (.shl 15 y) s = .next t ∧ t.readV 15 = (s.shiftOperand 15 y >>> 7) * 2 :=
  ⟨_, exec_shl s 15 y, by simp [flagByte_highBit, byte_shl_one]⟩

theorem State.shiftOperand_of_quirk {s : State} (h : s.cfg.shiftQuirk = true) : s.shiftOperand x y = s.readV x := by
  simp [State.shiftOperand, h]

theorem State.shiftOperand_of_not_quirk {s : State} (h : s.cfg.shiftQuirk = false) : s.shiftOperand x y = s.readV y := by
  simp [State.shiftOperand, h]

@[simp] theorem State.shiftOperand_self : s.shiftOperand x x = s.readV x := by
  simp [State.shiftOperand]

/-- Settles O29: each row is the instruction's equation with 15 for the operand that is the flag. -/
theorem flagRegisterAsAnOperand : Obligations.FlagRegisterAsAnOperand := by
  intro x y s hx hy
  have hflag {u : State} {f : Bool} {r : Byte} : (u.writeFlagged x f r).readV 15 = flagByte f :=
    u.readV_writeFlagged_flag f r hx
  refine ⟨⟨_, exec_addReg s 15 y, ?addFy⟩, ⟨_, exec_addReg s 15 15, ?addFF⟩, ⟨_, exec_addReg s x 15, ?addXF⟩,
    ⟨_, exec_subReg s 15 y, ?subFy⟩, ⟨_, exec_subReg s x 15, ?subXF⟩, ⟨_, exec_subReg s 15 15, ?subFF⟩,
    ⟨_, exec_subnReg s 15 y, ?subnFy⟩, ⟨_, exec_subnReg s x 15, ?subnXF⟩, ⟨_, exec_subnReg s 15 15, ?subnFF⟩,
    exec_shr_flag s y, exec_shr_flag s 15, fun hcopy => ⟨_, exec_shr s x 15, ?shrXF⟩, fun hquirk => ?shlQuirk, ?shlFF,
    fun hcopy => ?shlCopy, fun hcopy => ⟨_, exec_shl s x 15, ?shlXF⟩⟩
  case addFy | addFF => simp
  case addXF => simp [hflag, carryOut, flagByte_decide]
  case subFy | subXF | subFF | subnFy | subnXF | subnFF =>
    simp [hflag, hx, hy, State.operandAfterFlag, noBorrow, flagByte_decide]
  case shrXF => simp [hflag, hx, State.shiftOperand_of_not_quirk _ _ hcopy, flagByte_lowBit]
  case shlQuirk => simpa only [State.shiftOperand_of_quirk _ _ hquirk] using exec_shl_flag s y
  case shlFF => simpa only [State.shiftOperand_self] using exec_shl_flag s 15
  case shlCopy => simpa only [State.shiftOperand_of_not_quirk _ _ hcopy] using exec_shl_flag s y
  case shlXF => simp [hflag, hx, State.shiftOperand_of_not_quirk _ _ hcopy, flagByte_highBit]

end Sys2Proof.Machine
end

section
/-! 46_familyE_keypad.md, 47_familyF_misc.md, 44_familyA_B_C.md: key skips, index arithmetic, the random byte (R142, R153 to R155,
R161, R162). -/

namespace Sys2Proof.Machine

variable (x : Reg) {s : State}

/-! ### The two outcomes of each key skip -/

theorem exec_skp_of_key {k : Key} (h : s.keyOf? x = some k) : exec (.skp x) s = .next (s.skipIf s.keypad[k]) := by
  rw [exec, execSkp, h]

theorem exec_sknp_of_key {k : Key} (h : s.keyOf? x = some k) : exec (.sknp x) s = .next (s.skipIf (!s.keypad[k])) := by
  rw [exec, execSknp, h]

theorem exec_skp_of_no_key (h : s.keyOf? x = none) :
    exec (.skp x) s = .next (s.fail (.keyIndexOutOfRange (s.readV x) s.pc)) := by
  rw [exec, execSkp, h]; rfl

theorem exec_sknp_of_no_key (h : s.keyOf? x = none) :
    exec (.sknp x) s = .next (s.fail (.keyIndexOutOfRange (s.readV x) s.pc)) := by
  rw [exec, execSknp, h]; rfl

theorem State.keyOf?_of_le (h : (s.readV x).toNat ≤ 15) : s.keyOf? x = some ⟨(s.readV x).toNat, Nat.lt_succ_of_le h⟩ := by
  rcases s.keyOf?_eq x with ⟨_, hsome⟩ | ⟨hgt, -⟩
  · exact hsome
  · omega

theorem State.keyOf?_of_gt (h : 15 < (s.readV x).toNat) : s.keyOf? x = none := by
  rcases s.keyOf?_eq x with ⟨hlt, -⟩ | ⟨-, hnone⟩
  · omega
  · exact hnone

theorem State.skipIf_not_pc (s : State) (c : Bool) : (s.skipIf (!c)).pc = if c then s.pc + 2 else s.pc + 4 := by
  cases c <;> rfl

/-- Settles O35: a value up to 15 names a key, which decides both skips; a greater one names none. -/
theorem keySkipsFollowTheKeypad : Obligations.KeySkipsFollowTheKeypad := by
  refine fun x s => ⟨fun hle => ?key, fun hgt => ?noKey⟩
  case key =>
    have hkey := State.keyOf?_of_le x hle
    exact ⟨⟨_, exec_skp_of_key x hkey, s.skipIf_changesOnlyPc _, rfl⟩,
      ⟨_, exec_sknp_of_key x hkey, s.skipIf_changesOnlyPc _, s.skipIf_not_pc _⟩⟩
  case noKey =>
    have hkey := State.keyOf?_of_gt x hgt
    exact ⟨exec_skp_of_no_key x hkey, exec_sknp_of_no_key x hkey⟩

/-! ### Index arithmetic -/

theorem exec_addIVx (s : State) : exec (.addIVx x) s = .next { s with i := s.i + byteWord (s.readV x), pc := s.pc + 2 } := rfl

theorem exec_ldFVx (s : State) : exec (.ldFVx x) s = .next { s with i := digitAddr (s.readV x), pc := s.pc + 2 } := rfl

/-- Five times a byte is at most 1275, so the 16-bit product does not wrap (R162). -/
theorem digitAddr_toNat (b : Byte) : (digitAddr b).toNat = b.toNat * 5 := by
  rw [digitAddr, BitVec.toNat_mul, byteWord_toNat]
  exact Nat.mod_eq_of_lt (by simp only [BitVec.reduceToNat]; omega)

/-- Settles O32: the 16-bit sum is the sum modulo 65536, the product does not wrap, and each writes `I` and `PC` alone. -/
theorem indexAddAndDigitAddress : Obligations.IndexAddAndDigitAddress := by
  refine fun x s => ⟨⟨_, exec_addIVx x s, ?sum, rfl, rfl, sameMemory_of_eq rfl rfl⟩,
    ⟨_, exec_ldFVx x s, digitAddr_toNat _, rfl, rfl, sameMemory_of_eq rfl rfl⟩⟩
  case sum => rw [BitVec.toNat_add, byteWord_toNat]

/-! ### The random byte -/

theorem exec_rnd (kk : Byte) (s : State) :
    exec (.rnd x kk) s =
      .next (State.writeV { s with draws := s.draws + 1 } x (Config.randomByte s.draws &&& kk)).advance := rfl

/-- Settles O33: whatever byte is drawn, ANDing it with `kk` clears the bits that `kk` lacks. -/
theorem rndMasksAFreeByte : Obligations.RndMasksAFreeByte := by
  intro x kk s
  refine ⟨_, exec_rnd x kk s, ?masked, fun b hb => ?bits, ?bound, rfl, rfl, rfl, sameRegistersBut_writeV _ x _,
    sameMemory_of_eq rfl rfl⟩
  case masked => simp
  case bits => simp [hb]
  case bound =>
    rw [State.readV_advance, State.readV_writeV_self, BitVec.toNat_and]
    exact Nat.and_le_right

end Sys2Proof.Machine
end

section
/-! 20_memory.md, 47_familyF_misc.md: data accesses: the checks, the decimal digits, the block store and load (R51, R55 to R59, R68,
R163 to R165). -/

namespace Sys2Proof.Machine

variable (x y : Reg) {n : Nat} {s : State} {f : Failure}

/-! ### The two outcomes of each data access -/

theorem exec_ldBVx_of_failure (h : s.storeFailure 3 = some f) : exec (.ldBVx x) s = .next (s.fail f) := by
  rw [exec, execLdBVx, h]; rfl

theorem exec_ldBVx_of_pass (h : s.storeFailure 3 = none) :
    exec (.ldBVx x) s = .next (s.writeBytes s.i.toNat (decimalDigits (s.readV x))).advance := by
  rw [exec, execLdBVx, h]

theorem exec_ldMemVx_of_failure (h : s.storeFailure (x.val + 1) = some f) : exec (.ldMemVx x) s = .next (s.fail f) := by
  rw [exec, execLdMemVx, h]; rfl

theorem exec_ldMemVx_of_pass (h : s.storeFailure (x.val + 1) = none) :
    exec (.ldMemVx x) s = .next (s.writeBytes s.i.toNat (s.registersUpTo x)).advance := by
  rw [exec, execLdMemVx, h]

theorem exec_ldVxMem_of_failure (h : s.accessFailure (x.val + 1) = some f) : exec (.ldVxMem x) s = .next (s.fail f) := by
  rw [exec, execLdVxMem, h]; rfl

theorem exec_ldVxMem_of_pass (h : s.accessFailure (x.val + 1) = none) :
    exec (.ldVxMem x) s = .next (s.loadRegistersUpTo x).advance := by
  rw [exec, execLdVxMem, h]

theorem exec_drw_of_failure (h : s.accessFailure n = some f) : exec (.drw x y n) s = .next (s.fail f) := by
  rw [exec, execDrw, h]; rfl

/-! ### The checks that fail (R56, R57) -/

theorem State.storeFailure_of_access {count : Nat} (h : s.accessFailure count = some f) : s.storeFailure count = some f := by
  rw [State.storeFailure, h]

/-- A store of a block that starts in the font stays inside the memory, so it is the font check that fails. -/
theorem State.storeFailure_of_font {count : Nat} (hi : s.i.toNat < 80) (hcount : count ≤ 16) :
    s.storeFailure count = some (.fontRegionWrite s.i s.pc) := by
  have haccess : s.accessFailure count = none := State.accessFailure_eq_none.mpr (by omega)
  simp only [State.storeFailure, haccess, if_pos hi]

/-- Settles O43: all four make the access check before any effect, the stores before the font check. -/
theorem dataAccessPastTheMemoryFails : Obligations.DataAccessPastTheMemoryFails := by
  intro x y n s
  refine ⟨fun hn hend => exec_drw_of_failure x y (State.accessFailure_eq_some hn hend), fun hend => ?bcd, fun hend => ?block⟩
  case bcd => exact exec_ldBVx_of_failure x (State.storeFailure_of_access (State.accessFailure_eq_some (by decide) hend))
  case block =>
    have haccess : s.accessFailure (x.val + 1) = some (.memOutOfBounds s.i s.pc) :=
      State.accessFailure_eq_some (Nat.succ_pos _) hend
    exact ⟨exec_ldMemVx_of_failure x (State.storeFailure_of_access haccess), exec_ldVxMem_of_failure x haccess⟩

/-- Settles O44: both stores have at most 16 bytes, so their access check passes and the font check fails. -/
theorem storeIntoTheFontFails : Obligations.StoreIntoTheFontFails := fun x _ hi =>
  ⟨exec_ldBVx_of_failure x (State.storeFailure_of_font hi (by decide)),
    exec_ldMemVx_of_failure x (State.storeFailure_of_font hi x.isLt)⟩

/-! ### A run of bytes in a canonical memory -/

theorem State.readByte_writeBytes_inside (hm : MemoryCanonical s) (base : Nat) {bs : List Byte} {k : Nat} (hk : k < bs.length) :
    (s.writeBytes base bs).readByte (base + k) = bs[k] := by
  simp [State.readByte_writeBytes hm.1, hk]

theorem State.writeBytes_sameMemoryOutside (hm : MemoryCanonical s) (base : Nat) (bs : List Byte) :
    SameMemoryOutside s (s.writeBytes base bs) base bs.length := fun a ha => by
  rw [State.readByte_writeBytes hm.1, dif_neg (by omega)]

theorem byte_ofNat_toNat {d : Nat} (h : d < 256) : (BitVec.ofNat 8 d).toNat = d :=
  (BitVec.toNat_ofNat _ _).trans (Nat.mod_eq_of_lt h)

/-- Settles O40: the store passes its checks and writes the list of the three digits. -/
theorem bcdStoresThreeDigits : Obligations.BcdStoresThreeDigits := by
  intro x s hm hfont hend
  have hpass : s.storeFailure 3 = none := State.storeFailure_eq_none.mpr ⟨fun _ => hend, hfont⟩
  have hdigit {k : Nat} (hk : k < 3) := congrArg BitVec.toNat
    (State.readByte_writeBytes_inside hm s.i.toNat (bs := decimalDigits (s.readV x)) hk)
  exact ⟨_, exec_ldBVx_of_pass x hpass, (hdigit (k := 0) (by decide)).trans (byte_ofNat_toNat (by omega)),
    (hdigit (k := 1) (by decide)).trans (byte_ofNat_toNat (by omega)),
    (hdigit (k := 2) (by decide)).trans (byte_ofNat_toNat (by omega)),
    State.writeBytes_sameMemoryOutside hm _ (decimalDigits (s.readV x)), rfl, rfl⟩

/-- The byte that a block store puts at `I + r` is `V[r]`. -/
theorem State.readByte_store_block (hm : MemoryCanonical s) {x r : Reg} (hr : r ≤ x) :
    (s.writeBytes s.i.toNat (s.registersUpTo x)).readByte (s.dataAddr r.val) = s.readV r := by
  have hlen : r.val < (s.registersUpTo x).length := by rw [State.registersUpTo_length]; exact Nat.lt_succ_of_le hr
  exact (State.readByte_writeBytes_inside hm _ hlen).trans (s.registersUpTo_getElem x hlen)

theorem exec_ldMemVx_stores (hfont : 80 ≤ s.i.toNat) (hend : s.i.toNat + x.val ≤ 4095) :
    exec (.ldMemVx x) s = .next (s.writeBytes s.i.toNat (s.registersUpTo x)).advance :=
  exec_ldMemVx_of_pass x (State.storeFailure_eq_none.mpr ⟨fun _ => hend, hfont⟩)

/-- Settles O41: the store passes its checks and writes the list of the registers up to `V[x]`. -/
theorem storeRegistersWritesTheBlock : Obligations.StoreRegistersWritesTheBlock := by
  intro x s hm hfont hend
  refine ⟨_, exec_ldMemVx_stores x hfont hend, fun r hr => State.readByte_store_block hm hr, ?outside, rfl, rfl⟩
  case outside =>
    rw [← s.registersUpTo_length x]
    exact s.writeBytes_sameMemoryOutside hm _ _

/-- Settles O42: the load passes its check and reads each register up to `V[x]` from its own address. -/
theorem loadRegistersReadsTheBlock : Obligations.LoadRegistersReadsTheBlock := by
  intro x s hend
  have hpass : s.accessFailure (x.val + 1) = none := State.accessFailure_eq_none.mpr fun _ => hend
  refine ⟨_, exec_ldVxMem_of_pass x hpass, fun r hr => ?loaded, fun r hr => ?kept, by simp, ?frame, ?memory⟩
  case loaded => rw [State.readV_advance, State.readV_loadRegistersUpTo, if_pos hr]
  case kept => rw [State.readV_advance, State.readV_loadRegistersUpTo, if_neg (Fin.not_le.mpr hr)]
  case frame => simp only [State.advance, State.loadRegistersUpTo]
  case memory => exact sameMemory_of_eq (by simp) (by simp)

/-- Settles O45: the fetch after the store reads the two addresses above `PC`, on which the store put `V[k]` and `V[k']`. -/
theorem storedBytesAreFetchedAtOnce : Obligations.StoredBytesAreFetchedAtOnce := by
  intro x k k' s t hm hfont hend hk' hle hpc h
  cases (exec_ldMemVx_stores x hfont hend).symm.trans h
  have hnext : (s.pc + 2).toNat = s.dataAddr k.val := by
    rw [State.dataAddr]; bv_omega
  have hnext' : (s.pc + 2).toNat + 1 = s.dataAddr k'.val := by
    simp only [hnext, State.dataAddr]; omega
  have hk : k ≤ x := by
    rw [Fin.le_def] at hle ⊢; omega
  have hfirst := State.readByte_store_block hm hk
  have hsecond := State.readByte_store_block hm hle
  rw [← hnext] at hfirst
  rw [← hnext'] at hsecond
  exact congrArg₂ (fun a b => [a, b]) hfirst hsecond

/-! ### Canonical memories as data -/

section
variable {font : Vector Byte 80} {c c' : Host.Cell} {rest rest' m m' : Memory}

theorem Memory.wf_cons_iff :
    Memory.wf font (c :: rest) ↔
      (∀ d ∈ rest, c.1 < d.1) ∧ (c.1 < 4096 ∧ c.2 ≠ constructedByte font c.1) ∧ Memory.wf font rest := by
  rw [Memory.wf, Memory.wf, List.pairwise_cons, List.forall_mem_cons]
  tauto

theorem Memory.read_cons_self : Memory.read font (c :: rest) c.1 = c.2 := if_pos rfl

theorem Memory.read_cons_ne {a : Nat} (h : a ≠ c.1) : Memory.read font (c :: rest) a = Memory.read font rest a := if_neg h

/-- A listed cell differs from what its address reads as unlisted, so a memory that reads alike has no cells only above it. -/
theorem Memory.not_all_above_head (hm : Memory.wf font (c :: rest))
    (h : ∀ a, Memory.read font (c :: rest) a = Memory.read font m' a) : ¬ ∀ d ∈ m', c.1 < d.1 := by
  intro habove
  obtain ⟨-, ⟨-, hne⟩, -⟩ := Memory.wf_cons_iff.mp hm
  have hread := h c.1
  rw [Memory.read_cons_self, Memory.read_of_lt_all habove] at hread
  exact hne hread

theorem Memory.head_le_head (hm : Memory.wf font (c :: rest)) (hm' : Memory.wf font (c' :: rest'))
    (h : ∀ a, Memory.read font (c :: rest) a = Memory.read font (c' :: rest') a) : c'.1 ≤ c.1 := by
  by_contra hlt
  obtain ⟨habove', -, -⟩ := Memory.wf_cons_iff.mp hm'
  refine Memory.not_all_above_head hm h (List.forall_mem_cons.mpr ⟨by omega, fun d hd => ?_⟩)
  have := habove' d hd
  omega

/-- The first cells of canonical memories that read alike are equal, since neither address can be below the other, and the rest
read alike. -/
theorem Memory.eq_of_read_eq (hm : Memory.wf font m) (hm' : Memory.wf font m')
    (h : ∀ a, Memory.read font m a = Memory.read font m' a) : m = m' := by
  induction m generalizing m' with
  | nil =>
    cases m' with
    | nil => rfl
    | cons c' rest' => exact absurd (fun _ hd => nomatch hd) (Memory.not_all_above_head hm' fun a => (h a).symm)
  | cons c rest ih =>
    cases m' with
    | nil => exact absurd (fun _ hd => nomatch hd) (Memory.not_all_above_head hm h)
    | cons c' rest' =>
      obtain ⟨habove, -, hrest⟩ := Memory.wf_cons_iff.mp hm
      obtain ⟨habove', -, hrest'⟩ := Memory.wf_cons_iff.mp hm'
      have haddr : c.1 = c'.1 :=
        Nat.le_antisymm (Memory.head_le_head hm' hm fun a => (h a).symm) (Memory.head_le_head hm hm' h)
      have hbyte : c.2 = c'.2 := by
        have hread := h c.1
        rwa [Memory.read_cons_self, haddr, Memory.read_cons_self] at hread
      have htail : ∀ a, Memory.read font rest a = Memory.read font rest' a := by
        intro a
        by_cases ha : a = c.1
        · rw [Memory.read_of_lt_all (ha ▸ habove), Memory.read_of_lt_all (ha ▸ haddr ▸ habove')]
        · rw [← Memory.read_cons_ne ha, h a, Memory.read_cons_ne (haddr ▸ ha)]
      rw [Prod.ext haddr hbyte, ih hrest hrest' htail]

/-- Settles O46, by induction on the cells. -/
theorem memoriesThatReadAlikeAreEqual : Obligations.MemoriesThatReadAlikeAreEqual := fun _ _ _ => Memory.eq_of_read_eq

end

end Sys2Proof.Machine
end

section
/-! 45_familyD_draw.md: the sprite draw (R147, R148). -/

namespace Sys2Proof.Machine

variable (x y : Reg) (n : Nat) (s : State)

/-! ### What a draw leaves -/

theorem drawnState_flag : (drawnState x y n s).readV 15 = flagByte (s.plotSprite (s.readV x) (s.readV y) n).2 :=
  State.readV_writeV_self _ _ _

theorem drawnState_sameRegistersBut : SameRegistersBut s (drawnState x y n s) [15] := fun _ hr =>
  State.readV_writeV_ne _ _ (mt List.mem_singleton.mpr hr)

/-- Settles O37: the draw unit toggles the cells the sprite hits and reports whether one of them was true. -/
theorem drwTogglesTheSpriteCells : Obligations.DrwTogglesTheSpriteCells := by
  intro x y n s hn hend
  obtain ⟨hcell, hcollision⟩ := s.plotSprite_spec (s.readV x) (s.readV y) (n := n) (by omega)
  refine ⟨_, exec_drw_draws x y hend, fun r c => (hcell r c).1, fun r c => (hcell r c).2, fun hhit => ?hit, fun hmiss => ?miss,
    rfl, rfl, drawnState_sameRegistersBut x y n s, rfl, sameMemory_of_eq rfl rfl⟩
  case hit => rw [drawnState_flag, hcollision.mpr hhit]; rfl
  case miss => rw [drawnState_flag, Bool.eq_false_iff.mpr (mt hcollision.mp hmiss)]; rfl

/-! ### Drawing twice -/

variable {s} {t : State}

/-- Where a sprite falls depends on `I` and memory alone. -/
theorem spriteHits_congr (hi : t.i = s.i) (hmem : SameMemory s t) (vx vy : Byte) (r : Fin 32) (c : Fin 64) :
    SpriteHits t vx vy n r c ↔ SpriteHits s vx vy n r c := by
  simp only [SpriteHits, State.dataAddr, hi, hmem _]

/-- Settles O38: the first draw leaves the coordinates, `I` and memory, so the second toggles the same cells back. -/
theorem drawingTwiceRestoresTheScreen : Obligations.DrawingTwiceRestoresTheScreen := by
  intro x y n s t hn hend hx hy h
  obtain ⟨t', ht', hHit, hMiss, -, -, -, -, hregs, hframe, hmem⟩ := drwTogglesTheSpriteCells x y n s hn hend
  cases ht'.symm.trans h
  have hi : t.i = s.i := by rw [hframe]
  obtain ⟨u, hu, hHit', hMiss', hcollide, -⟩ := drwTogglesTheSpriteCells x y n t hn (hi ▸ hend)
  have hsame : ∀ r c, SpriteHits t (t.readV x) (t.readV y) n r c ↔ SpriteHits s (s.readV x) (s.readV y) n r c := by
    rw [hregs x (by simpa using hx), hregs y (by simpa using hy)]
    exact spriteHits_congr n hi hmem _ _
  refine ⟨u, hu, Framebuffer.ext_cell fun r c => ?restored, fun ⟨r, c, hhit⟩ hclear => hcollide ⟨r, c, ?again⟩⟩
  case restored =>
    by_cases hhit : SpriteHits s (s.readV x) (s.readV y) n r c
    · rw [hHit' r c ((hsame r c).mpr hhit), hHit r c hhit, Bool.not_not]
    · rw [hMiss' r c (mt (hsame r c).mp hhit), hMiss r c hhit]
  case again =>
    exact ⟨(hsame r c).mpr hhit, by rw [hHit r c hhit, hclear r c hhit]; rfl⟩

end Sys2Proof.Machine
end

section
/-! 10_state.md: which general registers an instruction may change (R24). -/

namespace Sys2Proof.Machine

variable {i : Instr} {s t : State}

/-- From `s` to `t` only a destination of the instruction changed, or the flag where the instruction writes it. -/
def WritesOnlyItsRegisters (i : Instr) (s t : State) : Prop :=
  ∀ r : Reg, isDestination i r = false → (r = 15 → writesFlag i = false) → t.readV r = s.readV r

theorem writesOnly_of_v_eq (h : t.v = s.v) : WritesOnlyItsRegisters i s t := fun r _ _ => State.readV_of_v_eq h r

theorem writesOnly_of_destination {x : Reg} (h : SameRegistersBut s t [x]) (hx : isDestination i x = true) :
    WritesOnlyItsRegisters i s t := fun r hr _ =>
  h r fun hmem => by rw [List.mem_singleton.mp hmem, hx] at hr; cases hr

theorem writesOnly_of_flag (h : SameRegistersBut s t [15]) (hi : writesFlag i = true) : WritesOnlyItsRegisters i s t :=
  fun r _ hflag => h r fun hmem => by rw [hflag (List.mem_singleton.mp hmem)] at hi; cases hi

theorem writesOnly_of_destination_and_flag {x : Reg} (h : SameRegistersBut s t [x, 15]) (hx : isDestination i x = true)
    (hi : writesFlag i = true) : WritesOnlyItsRegisters i s t := fun r hr hflag =>
  h r fun hmem => by
    rcases List.mem_pair.mp hmem with rfl | rfl
    · rw [hx] at hr; cases hr
    · rw [hflag rfl] at hi; cases hi

/-- Every instruction answers a next state in which only its own registers changed. -/
theorem exec_writesOnly (i : Instr) (s : State) : ∃ t, exec i s = .next t ∧ WritesOnlyItsRegisters i s t := by
  cases i with
  | cls | jp nnn | seByte x kk | sneByte x kk | seReg x y | sneReg x y | ldI nnn | jpV0 nnn | ldDtVx x | ldStVx x | addIVx x
  | ldFVx x => exact ⟨_, rfl, writesOnly_of_v_eq rfl⟩
  | ldByte x kk | addByte x kk | ldReg x y | orReg x y | andReg x y | xorReg x y | rnd x kk | ldVxDt x =>
    exact ⟨_, rfl, writesOnly_of_destination (sameRegistersBut_writeV _ x _) (beq_self_eq_true x)⟩
  | addReg x y | subReg x y | subnReg x y =>
    exact ⟨_, rfl, writesOnly_of_destination_and_flag (sameRegistersBut_flagged s x _ _) (beq_self_eq_true x) rfl⟩
  | shr x y | shl x y =>
    exact ⟨_, rfl, writesOnly_of_destination_and_flag (sameRegistersBut_shifted s x y _ _) (beq_self_eq_true x) rfl⟩
  | ret =>
    rcases Nat.eq_zero_or_pos s.sp.val with h | h
    · exact ⟨_, exec_ret_underflow h, writesOnly_of_v_eq rfl⟩
    · exact ⟨_, exec_ret_pop h, writesOnly_of_v_eq rfl⟩
  | call nnn =>
    rcases Nat.lt_or_eq_of_le (Nat.le_of_lt_succ s.sp.isLt) with h | h
    · exact ⟨_, exec_call_push nnn h, writesOnly_of_v_eq rfl⟩
    · exact ⟨_, exec_call_overflow nnn h, writesOnly_of_v_eq rfl⟩
  | drw x y n =>
    cases h : s.accessFailure n with
    | some f => exact ⟨_, exec_drw_of_failure x y h, writesOnly_of_v_eq rfl⟩
    | none =>
      exact ⟨_, exec_drw_draws x y (State.accessFailure_eq_none.mp h),
        writesOnly_of_flag (drawnState_sameRegistersBut x y n s) rfl⟩
  | skp x =>
    cases h : s.keyOf? x with
    | none => exact ⟨_, exec_skp_of_no_key x h, writesOnly_of_v_eq rfl⟩
    | some k => exact ⟨_, exec_skp_of_key x h, writesOnly_of_v_eq rfl⟩
  | sknp x =>
    cases h : s.keyOf? x with
    | none => exact ⟨_, exec_sknp_of_no_key x h, writesOnly_of_v_eq rfl⟩
    | some k => exact ⟨_, exec_sknp_of_key x h, writesOnly_of_v_eq rfl⟩
  | ldVxK x =>
    cases h : s.lowestPressed? with
    | none => exact ⟨_, exec_ldVxK_of_none x h, writesOnly_of_v_eq rfl⟩
    | some k =>
      exact ⟨_, exec_ldVxK_of_pressed x h, writesOnly_of_destination (sameRegistersBut_writeV s x _) (beq_self_eq_true x)⟩
  | ldBVx x =>
    cases h : s.storeFailure 3 with
    | some f => exact ⟨_, exec_ldBVx_of_failure x h, writesOnly_of_v_eq rfl⟩
    | none => exact ⟨_, exec_ldBVx_of_pass x h, writesOnly_of_v_eq rfl⟩
  | ldMemVx x =>
    cases h : s.storeFailure (x.val + 1) with
    | some f => exact ⟨_, exec_ldMemVx_of_failure x h, writesOnly_of_v_eq rfl⟩
    | none => exact ⟨_, exec_ldMemVx_of_pass x h, writesOnly_of_v_eq rfl⟩
  | ldVxMem x =>
    cases h : s.accessFailure (x.val + 1) with
    | some f => exact ⟨_, exec_ldVxMem_of_failure x h, writesOnly_of_v_eq rfl⟩
    | none =>
      refine ⟨_, exec_ldVxMem_of_pass x h, fun r hr _ => ?_⟩
      rw [State.readV_advance, State.readV_loadRegistersUpTo, if_neg (of_decide_eq_false hr)]

/-- Settles O30: the one next state an instruction answers differs only in the instruction's own registers. -/
theorem instructionsWriteOnlyTheirRegisters : Obligations.InstructionsWriteOnlyTheirRegisters := by
  intro i s t r h
  obtain ⟨t', ht', hwrites⟩ := exec_writesOnly i s
  cases ht'.symm.trans h
  exact hwrites r

end Sys2Proof.Machine
end

section
/-! 49_scheduler_timers.md: the two loops of a call as a whole (R182, R187, R190). -/

namespace Sys2Proof.Machine

variable {s t : State} {elapsed : Time}

/-! ### The periods an accumulator holds -/

theorem periodsIn_eq (rate : Nat) (accum : Time) : periodsIn rate accum = ⌊(rate : Rat) * accum⌋.toNat := by
  rw [periodsIn, mul_comm]; rfl

/-- An accumulator holds less than one period more than it is counted to hold, so as many passes empty its loop. -/
theorem lt_periodsIn_add_one {rate : Nat} (hrate : 0 < rate) (accum : Time) :
    accum < (periodsIn rate accum + 1) / rate := by
  have hpos : (0 : Rat) < rate := by exact_mod_cast hrate
  have hfloor : (⌊(rate : Rat) * accum⌋ : Rat) ≤ periodsIn rate accum := by
    rw [periodsIn_eq]
    exact_mod_cast Int.self_le_toNat _
  rw [lt_div_iff₀ hpos, mul_comm]
  linarith [Int.lt_floor_add_one ((rate : Rat) * accum)]

/-- One period less needs one pass less. -/
theorem sub_period_lt {accum : Time} {rate n : Nat} (h : accum < ((n + 1 : Nat) + 1) / (rate : Rat)) :
    accum - 1 / (rate : Rat) < (n + 1) / rate := by
  rw [sub_lt_iff_lt_add, ← add_div]
  exact_mod_cast h

/-! ### The timer loop -/

theorem runTimerLoop_of_not_due (n : Nat) (h : s.timerAccum < 1 / 60) : runTimerLoop n s = s := by
  cases n with
  | zero => rfl
  | succ n => rw [runTimerLoop, if_neg (mt (periodDue_timerRate_iff _).mp (not_le.mpr h))]

theorem runTimerLoop_of_due (n : Nat) (h : 1 / 60 ≤ s.timerAccum) :
    runTimerLoop (n + 1) s = runTimerLoop n (timerTick { s with timerAccum := s.timerAccum - 1 / 60 }) := by
  rw [runTimerLoop, if_pos ((periodDue_timerRate_iff _).mpr h), period_timerRate]

/-- While the accumulator holds them, `n` passes take `n` periods from it and count each timer down `n` times. -/
theorem runTimerLoop_eq (n : Nat) (h : (n : Rat) / 60 ≤ s.timerAccum) :
    runTimerLoop n s =
      { s with timerAccum := s.timerAccum - n / 60, dt := countDown^[n] s.dt, st := countDown^[n] s.st } := by
  induction n generalizing s with
  | zero => simp [runTimerLoop]
  | succ n ih =>
    have hn : (0 : Rat) ≤ n := n.cast_nonneg
    push_cast at h
    have hdue : 1 / 60 ≤ s.timerAccum := by linarith
    have hrest : (n : Rat) / 60 ≤ s.timerAccum - 1 / 60 := by linarith
    have haccum : s.timerAccum - 1 / 60 - n / 60 = s.timerAccum - ((n + 1 : Nat) : Rat) / 60 := by push_cast; ring
    rw [runTimerLoop_of_due n hdue, ih hrest, Function.iterate_succ_apply, Function.iterate_succ_apply, ← haccum]
    rfl

theorem countDown_iterate_toNat (n : Nat) (b : Byte) : (countDown^[n] b).toNat = b.toNat - n := by
  induction n generalizing b with
  | zero => rfl
  | succ n ih => rw [Function.iterate_succ_apply, ih, countDown_toNat]; omega

/-- Settles O54: the loop's bound is the whole number of periods the accumulator holds, and each pass takes one. -/
theorem timerLoopFiresFloorManyTicks : Obligations.TimerLoopFiresFloorManyTicks := by
  intro s hs
  have hfloor : 0 ≤ ⌊60 * s.timerAccum⌋ := Int.floor_nonneg.mpr (by linarith)
  have hn : periodsIn 60 s.timerAccum = ⌊60 * s.timerAccum⌋.toNat := periodsIn_eq 60 s.timerAccum
  have hcast : (periodsIn 60 s.timerAccum : Rat) = ⌊60 * s.timerAccum⌋ := by
    rw [hn]
    exact_mod_cast Int.toNat_of_nonneg hfloor
  have hle := Int.floor_le (60 * s.timerAccum)
  have hlt := Int.lt_floor_add_one (60 * s.timerAccum)
  refine ⟨_, runTimerLoop_eq _ ?held, ?accum, ?nonneg, ?below, ?dt, ?st, rfl⟩
  case held => rw [hcast]; linarith
  case accum => rw [← hcast]
  case nonneg => simp only [hcast]; linarith
  case below => simp only [hcast]; linarith
  case dt => rw [← hn]; exact countDown_iterate_toNat _ _
  case st => rw [← hn]; exact countDown_iterate_toNat _ _

/-! ### The steps of the timer loop -/

/-- The timer loop writes its accumulator and the timers. -/
theorem runTimerLoop_frame (n : Nat) (s : State) :
    runTimerLoop n s =
      { s with timerAccum := (runTimerLoop n s).timerAccum, dt := (runTimerLoop n s).dt, st := (runTimerLoop n s).st } := by
  induction n generalizing s with
  | zero => rfl
  | succ n ih =>
    rcases le_or_gt (1 / 60) s.timerAccum with h | h
    · rw [runTimerLoop_of_due n h, ih]; rfl
    · rw [runTimerLoop_of_not_due _ h]

@[simp] theorem runTimerLoop_cfg (n : Nat) (s : State) : (runTimerLoop n s).cfg = s.cfg := by rw [runTimerLoop_frame]
@[simp] theorem runTimerLoop_halted (n : Nat) (s : State) : (runTimerLoop n s).halted = s.halted := by rw [runTimerLoop_frame]
@[simp] theorem runTimerLoop_phase (n : Nat) (s : State) : (runTimerLoop n s).phase = s.phase := by rw [runTimerLoop_frame]

/-- `s` at the control point of the timer loop. -/
def State.inTimerLoop (s : State) (elapsed : Time) : State := { s with phase := .timerLoop elapsed }

/-- `s` where the CPU loop begins: its accumulator has grown by the call's time (R182). -/
def State.enterCpuLoop (s : State) (elapsed : Time) : State := { s with cpuAccum := s.cpuAccum + elapsed, phase := .cpuLoop }

theorem step_inTimerLoop (hwf : s.cfg.wf = true) (hh : s.halted = none) :
    step (s.inTimerLoop elapsed) = timerLoopPass elapsed (s.inTimerLoop elapsed) :=
  step_timerLoop (s := s.inTimerLoop elapsed) hwf hh rfl

theorem step_inTimerLoop_of_due (hwf : s.cfg.wf = true) (hh : s.halted = none) (h : 1 / 60 ≤ s.timerAccum) :
    step (s.inTimerLoop elapsed) =
      .next ((timerTick { s with timerAccum := s.timerAccum - 1 / 60 }).inTimerLoop elapsed) :=
  (step_inTimerLoop hwf hh).trans (timerLoopPass_of_due (s := s.inTimerLoop elapsed) elapsed h)

theorem step_inTimerLoop_of_not_due (hwf : s.cfg.wf = true) (hh : s.halted = none) (h : s.timerAccum < 1 / 60) :
    step (s.inTimerLoop elapsed) = .next (s.enterCpuLoop elapsed) :=
  (step_inTimerLoop hwf hh).trans (timerLoopPass_of_not_due (s := s.inTimerLoop elapsed) elapsed h)

/-- The steps from the timer loop of a call reach its CPU loop, with the state that `n` passes leave, where `n` are enough. -/
theorem stepsTo_of_runTimerLoop (hwf : s.cfg.wf = true) (hh : s.halted = none) {n : Nat}
    (hn : s.timerAccum < (n + 1) / timerRate) :
    StepsTo (s.inTimerLoop elapsed) ((runTimerLoop n s).enterCpuLoop elapsed) := by
  induction n generalizing s with
  | zero => exact .one (step_inTimerLoop_of_not_due hwf hh (by simpa using hn))
  | succ n ih =>
    rcases le_or_gt (1 / 60) s.timerAccum with h | h
    · rw [runTimerLoop_of_due n h]
      exact .head (step_inTimerLoop_of_due hwf hh h) (ih hwf hh (sub_period_lt (rate := timerRate) hn))
    · rw [runTimerLoop_of_not_due _ h]
      exact .one (step_inTimerLoop_of_not_due hwf hh h)

/-! ### The steps of the CPU loop -/

theorem runCpuLoop_of_not_due (hfreq : 0 < s.cfg.cpuFrequency) (n : Nat) (h : s.cpuAccum < 1 / (s.cfg.cpuFrequency : Rat)) :
    runCpuLoop n s = .next s := by
  cases n with
  | zero => rfl
  | succ n => rw [runCpuLoop, if_neg (mt (periodDue_iff hfreq _).mp (not_le.mpr h))]

theorem runCpuLoop_of_due (hfreq : 0 < s.cfg.cpuFrequency) (n : Nat) (h : 1 / (s.cfg.cpuFrequency : Rat) ≤ s.cpuAccum)
    (hinvoke : invoke { s with cpuAccum := s.cpuAccum - 1 / (s.cfg.cpuFrequency : Rat) } = .next t) :
    runCpuLoop (n + 1) s = if t.halted.isSome then .next t else runCpuLoop n t := by
  rw [runCpuLoop, if_pos ((periodDue_iff hfreq _).mpr h), period_eq hfreq, hinvoke]

/-- What the steps of a call end in, given the state in which its CPU loop stopped: that state after a failure, else the state after
the host's check (R187, R204 a). -/
def callEnd (u : State) : State := if u.halted = none then endCall u else u

/-- With no period due the CPU loop stops where it is, and the step is the host's check. -/
theorem runCpuLoop_ends_of_not_due (hwf : s.cfg.wf = true) (hh : s.halted = none) (hp : s.phase = .cpuLoop) (n : Nat)
    (h : s.cpuAccum < 1 / (s.cfg.cpuFrequency : Rat)) :
    ∃ u, runCpuLoop n s = .next u ∧ StepsTo s (callEnd u) := by
  have hfreq := config_wf_iff.mp hwf
  refine ⟨s, runCpuLoop_of_not_due hfreq n h, ?_⟩
  rw [callEnd, if_pos hh]
  exact .one ((step_cpuLoop hwf hh hp).trans (cpuLoopPass_of_not_due hfreq h))

/-- The steps of the CPU loop end in what `n` passes of it give, where `n` are enough. -/
theorem runCpuLoop_ends (hwf : s.cfg.wf = true) (hh : s.halted = none) (hp : s.phase = .cpuLoop) {n : Nat}
    (hn : s.cpuAccum < (n + 1) / s.cfg.cpuFrequency) :
    ∃ u, runCpuLoop n s = .next u ∧ StepsTo s (callEnd u) := by
  induction n generalizing s with
  | zero => exact runCpuLoop_ends_of_not_due hwf hh hp 0 (by simpa using hn)
  | succ n ih =>
    rcases le_or_gt (1 / (s.cfg.cpuFrequency : Rat)) s.cpuAccum with h | h
    · have hfreq := config_wf_iff.mp hwf
      obtain ⟨t, hinvoke, -⟩ := invoke_effect { s with cpuAccum := s.cpuAccum - 1 / (s.cfg.cpuFrequency : Rat) }
      have hstep : step s = .next t := (step_cpuLoop hwf hh hp).trans ((cpuLoopPass_of_due hfreq h).trans hinvoke)
      obtain ⟨-, hcfg, -, haccum, hphase, -⟩ := invocationLeavesTheOtherAgentsAlone _ _ hinvoke
      rw [runCpuLoop_of_due hfreq n h hinvoke]
      cases ht : t.halted with
      | some f => exact ⟨t, rfl, by rw [callEnd, if_neg (by simp [ht])]; exact .one hstep⟩
      | none =>
        obtain ⟨u, hu, hsteps⟩ := ih (s := t) (hcfg ▸ hwf) ht (hphase.trans hp) (by
          rw [hcfg, haccum]
          exact sub_period_lt hn)
        exact ⟨u, hu, .head hstep hsteps⟩
    · exact runCpuLoop_ends_of_not_due hwf hh hp _ h

/-! ### The whole call -/

/-- Where the CPU loop of a call begins, once the timer loop has made the passes that its accumulator has periods for (R182). -/
def timersRun (s : State) (elapsed : Time) : State :=
  (runTimerLoop (periodsIn timerRate s.timerAccum) s).enterCpuLoop elapsed

theorem State.enterCpuLoop_of_phase (hp : s.phase = .cpuLoop) :
    s.enterCpuLoop elapsed = { s with cpuAccum := s.cpuAccum + elapsed } := by
  rw [State.enterCpuLoop, ← hp]

theorem timersRun_of_phase (hp : s.phase = .cpuLoop) :
    timersRun s elapsed =
      let t := runTimerLoop (periodsIn timerRate s.timerAccum) s
      { t with cpuAccum := t.cpuAccum + elapsed } :=
  State.enterCpuLoop_of_phase ((runTimerLoop_phase _ s).trans hp)

theorem advanceCall_eq (elapsed : Time) (hp : s.phase = .cpuLoop) :
    advanceCall elapsed s =
      let t := timersRun { s with timerAccum := s.timerAccum + elapsed } elapsed
      runCpuLoop (periodsIn t.cfg.cpuFrequency t.cpuAccum) t := by
  rw [timersRun_of_phase]
  · rfl
  · exact hp

/-- The steps from the timer loop of a call end in what its two loops give. -/
theorem callLoops_end (hwf : s.cfg.wf = true) (hh : s.halted = none) (elapsed : Time) :
    ∃ u, runCpuLoop (periodsIn (timersRun s elapsed).cfg.cpuFrequency (timersRun s elapsed).cpuAccum) (timersRun s elapsed) =
      .next u ∧ StepsTo (s.inTimerLoop elapsed) (callEnd u) := by
  have hcfg : (timersRun s elapsed).cfg = s.cfg := runTimerLoop_cfg _ s
  have hwf' : (timersRun s elapsed).cfg.wf = true := hcfg ▸ hwf
  have htimers : StepsTo (s.inTimerLoop elapsed) (timersRun s elapsed) :=
    stepsTo_of_runTimerLoop hwf hh (lt_periodsIn_add_one (by decide) s.timerAccum)
  obtain ⟨u, hu, hcpu⟩ := runCpuLoop_ends hwf' ((runTimerLoop_halted _ s).trans hh) rfl
    (lt_periodsIn_add_one (config_wf_iff.mp hwf') _)
  exact ⟨u, hu, htimers.trans hcpu⟩

/-- Settles O55: the host's move opens the call, the steps of each loop follow its passes, and the bounds on the passes are
enough. -/
theorem stepsOfACallReachTheWholeCall : Obligations.StepsOfACallReachTheWholeCall := by
  intro s elapsed rest hfreq hh hp hinputs helapsed
  have hwf := config_wf_iff.mpr hfreq
  have hopen := (step_idle hwf hh hp).trans (hostMove_advance hinputs helapsed)
  obtain ⟨u, hu, hsteps⟩ := callLoops_end
    (s := { s with phase := .cpuLoop, inputs := rest, timerAccum := s.timerAccum + elapsed }) hwf hh elapsed
  exact ⟨u, (advanceCall_eq elapsed rfl).trans hu, .head hopen hsteps⟩

end Sys2Proof.Machine
end
